-- ==== Sys2Proof/Word.lean ====
section
/-! DEFINITION. The word types of R64 and its bit streams (00_scope.md R5, R6, R7). -/

namespace Sys2Proof

/-- "Byte 8 bits" (00_scope.md R5). -/
abbrev Byte := BitVec 8

/-- "Register width 32 bits" (00_scope.md R5); also a command word (30_encoding.md R90). -/
abbrev Word := BitVec 32

/-- "sextet 6 bits" (00_scope.md R5). -/
abbrev Sextet := BitVec 6

/-- An aperture offset, `0 <= off < 0x40000` (20_memory.md R60): exactly the values of 18 bits. -/
abbrev Offset := BitVec 18

/-- Size of the aperture in bytes (20_memory.md R60). -/
abbrev apertureSize : Nat := 0x40000

end Sys2Proof
end

