-- ==== Sys2Proof/Config.lean ====
section
/-! DEFINITION. What an implementation or the platform fixes: the parameters of 00_scope.md R5 and
60_exceptions.md R230, and the values the spec leaves to the implementation (93_implementation_defined.md). -/

namespace Sys2Proof

/-- The parameters of one R64 (00_scope.md R5, IRQ_LINE from 60_exceptions.md R230). LATENCY has no field:
"No rule of this spec depends on LATENCY, and a model includes no time" (70_reset_and_hazards.md R262); log entry 1. -/
structure Params where
  /-- BASE: byte address of the aperture in the host's address space. -/
  base : Nat
  /-- IN_CAP: capacity of IN_MEM in bytes. -/
  inCap : Nat
  /-- OUT_CAP: capacity of OUT_MEM in bytes. -/
  outCap : Nat
  /-- IRQ_LINE: the input of the platform's interrupt controller that `irq` is connected to. -/
  irqLine : Nat
deriving DecidableEq, Repr

/-- `4*ceil(n/3)`: the least OUT_CAP that R5 allows for IN_CAP = n, and the length of an encoding of n bytes (R131). -/
def encodedLength (n : Nat) : Nat := 4 * ((n + 2) / 3)

/-- The platform's choice of BASE, in units of the aperture (D6, OPEN). -/
opaque Config.basePage : Nat
/-- The implementation's choice of IN_CAP (D7, OPEN), before it is brought into R5's range. -/
opaque Config.inCapChoice : Nat
/-- The implementation's choice of OUT_CAP (D7, OPEN), before it is brought into R5's range. -/
opaque Config.outCapChoice : Nat
/-- The platform's interrupt line (D23, OPEN). -/
opaque Config.irqLine : Nat

/-- IN_CAP of the machine after reset: any value of `1 <= IN_CAP <= 49152` (R5). -/
def Config.inCap : Nat := Config.inCapChoice % 49152 + 1

/-- OUT_CAP of the machine after reset: any value of `4*ceil(IN_CAP/3) <= OUT_CAP <= 65536` (R5). -/
def Config.outCap : Nat :=
  encodedLength Config.inCap + Config.outCapChoice % (65536 - encodedLength Config.inCap + 1)

/-- The parameters of the machine `State.reset` describes: every choice R5 allows, none of them fixed (log entry 7). -/
def Config.params : Params :=
  { base := apertureSize * Config.basePage
    inCap := Config.inCap
    outCap := Config.outCap
    irqLine := Config.irqLine }

/-- ERR_INFO after UNMAPPABLE: implementation-defined (93_implementation_defined.md 3); here a function of the symbols
being decoded. Unreachable in a correct engine (43_decoder.md R185); log entry 10. -/
opaque Config.unmappableInfo : List Byte → Word

/-- OUT_MEM byte j after UNMAPPABLE: implementation-defined (93_implementation_defined.md 4). Unreachable; log entry 10. -/
opaque Config.unmappableByte : List Byte → Nat → Byte

/-- The value of a host-program variable that no read has bound yet (30_encoding.md R96 states none): a free value per variable;
log entry 14. It is the host notation's, not the engine's. -/
opaque Config.unboundHostVar : Nat → Word

end Sys2Proof
end

