-- ==== Sys2Proof/Syntax.lean ====
section
/-! DEFINITION. The three commands of R64 (30_encoding.md R91) and the host accesses of its port (20_memory.md R61). -/

namespace Sys2Proof

/-- One constructor per row of spec/opcode_table.json. "No command has an immediate or register field. Every operand is
implicit" (30_encoding.md R92). -/
inductive Instr where
  /-- ENCODE: the source's encode mode, bytes to text (41_encoder.md R130). -/
  | encode
  /-- DECODE: the source's decode mode, text to bytes, validating first (43_decoder.md R180). -/
  | decode
  /-- ACK: acknowledge DONE or ERROR, return to IDLE (44_control.md R204). -/
  | ack
deriving DecidableEq, Repr

/-- What the command decoder answers: one of the commands, or ILLEGAL (30_encoding.md R93). -/
inductive Decoded where
  | command (i : Instr)
  | illegal
deriving DecidableEq, Repr

/-- An access width: 1, 2 or 4 bytes (20_memory.md R61). -/
inductive Width where
  | w1 | w2 | w4
deriving DecidableEq, Repr

/-- A value of `8*width` bits on the port (20_memory.md R61): the data of a WRITE, or what a READ returns. -/
inductive BusData where
  | b1 (d : BitVec 8)
  | b2 (d : BitVec 16)
  | b4 (d : BitVec 32)
deriving DecidableEq, Repr

/-- The kind of an access with its width, and its data for a WRITE (20_memory.md R61). -/
inductive AccessOp where
  | read (width : Width)
  | write (data : BusData)
deriving DecidableEq, Repr

/-- A host access at an aperture offset: the tuple `(kind, width, off, data)` of 20_memory.md R61. -/
structure Access where
  op : AccessOp
  off : Offset
deriving DecidableEq, Repr

/-- A host access by its address in the host's address space, which reaches the engine only inside the aperture
(20_memory.md R60). -/
structure BusAccess where
  op : AccessOp
  addr : Nat
deriving DecidableEq, Repr

/-- The port's answer (20_memory.md R61, R66): whether the access got a bus error, and the data of a READ. -/
structure Response where
  error : Bool
  data : Option BusData
deriving DecidableEq, Repr

/-- One turn of the machine: a host access, the engine's turn, or reset (20_memory.md R75, 70_reset_and_hazards.md R250). -/
inductive Event where
  /-- A host access inside the aperture. -/
  | host (a : Access)
  /-- A host access by host address. -/
  | bus (b : BusAccess)
  /-- The engine's turn: it completes the pending operation, if there is one (44_control.md R206). -/
  | engine
  /-- `rst` is applied and released (70_reset_and_hazards.md R250). -/
  | reset
deriving DecidableEq, Repr

end Sys2Proof
end

