-- ==== Sys2Proof/WellFormed.lean ====
section
/-! DEFINITION. Well-formedness: of the parameters (00_scope.md R5), of a command word (30_encoding.md R91) and of an
instruction. -/

namespace Sys2Proof

/-- BASE is a "multiple of 0x40000" (R5). -/
def Params.baseAligned (p : Params) : Bool := p.base % apertureSize == 0

/-- "1 <= IN_CAP <= 49152" (R5). -/
def Params.inCapInRange (p : Params) : Bool := decide (1 ≤ p.inCap) && decide (p.inCap ≤ 49152)

/-- "4*ceil(IN_CAP/3) <= OUT_CAP <= 65536" (R5). -/
def Params.outCapInRange (p : Params) : Bool :=
  decide (encodedLength p.inCap ≤ p.outCap) && decide (p.outCap ≤ 65536)

/-- All constraints of R5 on the parameters. -/
def Params.wf (p : Params) : Bool := p.baseAligned && p.inCapInRange && p.outCapInRange

/-- OP, bits [3:0] of a command word (R90). -/
def opField (w : Word) : BitVec 4 := w.extractLsb' 0 4

/-- RSV, bits [31:4] of a command word (R90). -/
def rsvField (w : Word) : BitVec 28 := w.extractLsb' 4 28

/-- "RSV: reserved; must be 0" (R90). -/
def rsvClear (w : Word) : Bool := rsvField w == 0

/-- OP is one of the three that select a command (R91). -/
def opAssigned (w : Word) : Bool := opField w == 1 || opField w == 2 || opField w == 3

/-- "A word selects a command only when RSV is 0" (R91). -/
def wfCommandWord (w : Word) : Bool := rsvClear w && opAssigned w

/-- Every instruction is well formed: none has an operand field (R92). -/
def Instr.wf : Instr → Bool
  | .encode => true
  | .decode => true
  | .ack => true

end Sys2Proof
end

