-- ==== Sys2Proof/Decode.lean ====
section
/-! DEFINITION. The command decoder (30_encoding.md R93) and, after it, the encoder (R91). -/

namespace Sys2Proof

/-- The command decoder, "a total function of the 32-bit word w"; it "reads no other state" (30_encoding.md R93). -/
def decodeCmd (w : Word) : Decoded :=
  if w = 0x00000001#32 then .command .encode
  else if w = 0x00000002#32 then .command .decode
  else if w = 0x00000003#32 then .command .ack
  else .illegal

/-- The instruction the decoder reads from the table's numbering of an instruction's bits. A command is one 32-bit word
(R90), transferred whole as the data of the CMD write, so no byte order enters; the bits above `nbits` are 0. -/
def decodeTableWord (nbits w : Nat) : Option Instr :=
  match decodeCmd (BitVec.ofNat 32 (w % 2 ^ nbits)) with
  | .command i => some i
  | .illegal => none

/-- The OP value of an instruction (30_encoding.md R91). -/
def opCode : Instr → BitVec 4
  | .encode => 0x1#4
  | .decode => 0x2#4
  | .ack => 0x3#4

/-- The command word of an instruction: RSV = 0, then OP (30_encoding.md R90, R91). -/
def encode (i : Instr) : Word := 0#28 ++ opCode i

end Sys2Proof
end

