-- ==== Sys2Proof/Machine/State.lean ====
section
/-! DEFINITION. The state of R64 (10_state.md R40), its reset (R41), and the reasons a step can stop. -/

namespace Sys2Proof.Machine

/-- STATUS.STATE: "four values, and all four are legal" (10_state.md R25). -/
inductive EngineState where
  | idle | busy | done | error
deriving DecidableEq, Repr

/-- STATUS.ERR (10_state.md R26, 60_exceptions.md R220). Codes 6-15 are "reserved, never produced": no constructor holds one
(DEDUCED, log entry 12). -/
inductive ErrCode where
  | none | length | invalidChar | unmappable | param | illegalCmd
deriving DecidableEq, Repr

/-- The mode of an operation: "exactly one of {encode, decode}" (10_state.md R35). -/
inductive Mode where
  | encode | decode
deriving DecidableEq, Repr

/-- The operation latch `(mode, n)` (10_state.md R35). -/
structure Pending where
  mode : Mode
  n : Nat
deriving DecidableEq, Repr

/-- A buffer: its written bytes by index, indices strictly rising (`Memory.wf`). An index that is not listed is a byte "not
written since reset" (10_state.md R36, R37): it has no value. -/
abbrev Memory := List Host.Cell

/-- The whole state. The first nine fields are the spec's complete architectural state (10_state.md R40). `params` are the
parameters of 00_scope.md R5, which no step changes (log entry 7). `response` and `events` are the model's own: the port's last
answer (log entry 3), and the turns still to come (log entry 1). -/
structure State where
  /-- STATE (R25). -/
  state : EngineState
  /-- ERR (R26). -/
  err : ErrCode
  /-- ERR_INFO (R29). -/
  errInfo : Word
  /-- IN_LEN (R27). -/
  inLen : Word
  /-- OUT_LEN (R28). -/
  outLen : Word
  /-- IE, bit 0 of IRQ_EN (R30). -/
  ie : Bool
  /-- IN_MEM (R36). -/
  inMem : Memory
  /-- OUT_MEM (R37). -/
  outMem : Memory
  /-- The operation latch (R35). -/
  pending : Option Pending
  /-- The parameters (00_scope.md R5). -/
  params : Params
  /-- The port's answer to the last host access (20_memory.md R61, R66). -/
  response : Option Response
  /-- The turns still to come, the next one first (20_memory.md R75). -/
  events : List Event
deriving DecidableEq, Repr

/-- Why a step stops with a fault. Both are the spec's "a model faults" (93_implementation_defined.md 1, 2; log entry 5). -/
inductive Fault where
  /-- A host READ of a buffer byte not written since reset (20_memory.md R69, R71). Raised by the port. SAFE: the hardware
  answers some value where the model stops. -/
  | unwrittenRead
  /-- An ENCODE or DECODE over an input byte not written since reset (70_reset_and_hazards.md R257). Raised where the command is
  accepted. SAFE: the hardware goes on with some input where the model stops. -/
  | unwrittenInput
deriving DecidableEq, Repr

/-- Why a step refuses an instruction. -/
inductive Refusal where
  /-- An instruction without a meaning yet, by its mnemonic in the opcode table. Raised by no arm of `exec`: every row has its
  meaning. SAFE: the model would stop where the hardware goes on. -/
  | notModelled (mnemonic : String)
deriving DecidableEq, Repr

/-- The outcome of a step. -/
abbrev StepResult := Host.Outcome State Fault Refusal

/-- The state after reset (10_state.md R41, 70_reset_and_hazards.md R250, R251) of a machine with parameters `p`, with the turns
`es` still to come. -/
def State.resetWith (p : Params) (es : List Event) : State :=
  { state := .idle
    err := .none
    errInfo := 0
    inLen := 0
    outLen := 0
    ie := false
    inMem := []
    outMem := []
    pending := none
    params := p
    response := none
    events := es }

/-- The machine right after reset, with nothing still to come (log entry 11). -/
def State.reset : State := State.resetWith Config.params []

end Sys2Proof.Machine
end

