-- ==== Sys2Proof/Machine/Ops.lean ====
section
/-! DEFINITION. The named operations over the buffers and registers: reading and writing bytes (20_memory.md R70), accepting an
operation (44_control.md R201), completing it (41_encoder.md R136), error entry (60_exceptions.md R224, R225) and the return from
error (44_control.md R204). -/

namespace Sys2Proof.Machine

/-! ### Buffers -/

/-- The canonical form of a buffer: indices strictly rising. No listed byte can equal what an unlisted one reads as, since an
unlisted byte has no value. -/
def Memory.wf : Memory → Bool
  | [] => true
  | [_] => true
  | c :: d :: m => decide (c.1 < d.1) && Memory.wf (d :: m)

/-- Byte `a` of a buffer; `none` is "not written since reset" (10_state.md R36). -/
def Memory.read : Memory → Nat → Option Byte
  | [], _ => none
  | c :: m, a => if c.1 = a then some c.2 else Memory.read m a

/-- Write byte `a`, which becomes written. -/
def Memory.write : Memory → Nat → Byte → Memory
  | [], a, b => [(a, b)]
  | c :: m, a, b =>
    if a < c.1 then (a, b) :: c :: m
    else if a = c.1 then (a, b) :: m
    else c :: Memory.write m a b

/-- `MemRead(M, i, n)`: the bytes `M[i], ..., M[i+n-1]`, or `none` if one of them is unwritten (20_memory.md R70). -/
def Memory.readBytes (m : Memory) : Nat → Nat → Option (List Byte)
  | _, 0 => some []
  | i, n + 1 =>
    match Memory.read m i, Memory.readBytes m (i + 1) n with
    | some b, some bs => some (b :: bs)
    | _, _ => none

/-- `MemWrite(M, i, |L|, L)`: `M[i+k] <- L[k]`, every other byte unchanged (20_memory.md R70). -/
def Memory.writeBytes (m : Memory) : Nat → List Byte → Memory
  | _, [] => m
  | i, b :: bs => Memory.writeBytes (Memory.write m i b) (i + 1) bs

/-- Bytes `0..n-1` are all written. -/
def Memory.written (m : Memory) (n : Nat) : Bool := (Memory.readBytes m 0 n).isSome

/-! ### Updates of the state -/

/-- Record the port's answer to a host access (20_memory.md R61). -/
def State.respond (r : Response) (s : State) : State := { s with response := some r }

/-- Take the turn at the head of the list: `es` are the turns after it. -/
def State.withEvents (es : List Event) (s : State) : State := { s with events := es }

/-- Store to IN_LEN (10_state.md R27). -/
def State.setInLen (w : Word) (s : State) : State := { s with inLen := w }

/-- Store to IRQ_EN.IE (10_state.md R30). -/
def State.setIe (b : Bool) (s : State) : State := { s with ie := b }

/-- Host WRITE of bytes from index `i` of IN_MEM (20_memory.md R69). -/
def State.storeIn (i : Nat) (bs : List Byte) (s : State) : State :=
  { s with inMem := Memory.writeBytes s.inMem i bs }

/-- The engine's `MemWrite(OUT, 0, |L|, L)` (20_memory.md R70). -/
def State.storeOut (L : List Byte) (s : State) : State :=
  { s with outMem := Memory.writeBytes s.outMem 0 L }

/-- The engine accepts an operation: the register effects of `startOp` (44_control.md R201). -/
def State.accept (mode : Mode) (n : Nat) (s : State) : State :=
  { s with outLen := 0, errInfo := 0, err := .none, pending := some ⟨mode, n⟩, state := .busy }

/-- `complete(len)`, the success completion shared by ENCODE and DECODE (41_encoder.md R136). -/
def State.complete (len : Nat) (s : State) : State :=
  { s with outLen := BitVec.ofNat 32 len, errInfo := 0, err := .none, state := .done, pending := none }

/-- Error entry, the one shared operation: "It saves only the error code in STATUS.ERR and the diagnostic in ERR_INFO. It changes
STATE to ERROR and OUT_LEN to 0" (60_exceptions.md R224); in the host step, as R202 and R205 write it. -/
def State.raiseError (e : ErrCode) (info : Word) (s : State) : State :=
  { s with outLen := 0, errInfo := info, err := e, state := .error }

/-- `raise E(info)` in an engine step: error entry, and the operation ends (60_exceptions.md R225). -/
def State.raiseInEngine (e : ErrCode) (info : Word) (s : State) : State :=
  { State.raiseError e info s with pending := none }

/-- The return from DONE or ERROR to IDLE; OUT_LEN and OUT_MEM stay (44_control.md R204, 60_exceptions.md R226). -/
def State.acknowledge (s : State) : State :=
  { s with state := .idle, err := .none, errInfo := 0 }

/-- Reset: every register and field takes its reset value, a pending operation is abandoned, the buffers' bytes become unwritten
(70_reset_and_hazards.md R250, R251). The parameters and the turns still to come are not the engine's to lose. -/
def State.applyReset (s : State) : State := State.resetWith s.params s.events

/-! ### The command interface -/

/-- `startOp(mode)` (44_control.md R201): ParamError when IN_LEN exceeds IN_CAP, unsigned (R202); a fault when an input byte is
unwritten (70_reset_and_hazards.md R257); otherwise the operation is accepted, its operands latched. -/
def startOp (mode : Mode) (s : State) : StepResult :=
  if s.params.inCap < s.inLen.toNat then .next (State.raiseError .param s.inLen s)
  else if Memory.written s.inMem s.inLen.toNat then .next (State.accept mode s.inLen.toNat s)
  else .fault .unwrittenInput

/-- An illegal command word: ignored while BUSY (44_control.md R200), otherwise IllegalCommand with the word as its diagnostic
(R205). -/
def illegalCmd (w : Word) (s : State) : State :=
  if s.state = .busy then s else State.raiseError .illegalCmd w s

end Sys2Proof.Machine
end

