-- ==== Sys2Proof/Machine/AckCommand.lean ====
section
/-! DEFINITION. ACK, the only control command (44_control.md R204, R207). -/

namespace Sys2Proof.Machine

/-- The ACK command: in DONE or ERROR the return to IDLE; "in IDLE: no effect" (44_control.md R204); ignored while BUSY (R200). -/
def execAck (s : State) : StepResult :=
  if s.state = .done ∨ s.state = .error then .next (State.acknowledge s) else .next s

end Sys2Proof.Machine
end

