-- ==== Sys2Proof/Machine/Alphabet.lean ====
section
/-! DEFINITION. The alphabet's two lookup tables (10_state.md R38; 40_alphabet.md R110-R115). -/

namespace Sys2Proof.Machine

/-- NL, "newline characters (byte value 10)" (40_alphabet.md R115). -/
def NL : Byte := 0x0A

/-- PAD, "`=` characters (byte value 61)" (40_alphabet.md R115). -/
def PAD : Byte := 0x3D

/-- The symbol of a value, by R111's closed form. Total. The byte codes are the US-ASCII code points, which the spec supplies from
general knowledge (PRESUMED, log entry 15). -/
def symbolFor (v : Sextet) : Byte :=
  if v.toNat ≤ 25 then BitVec.ofNat 8 (65 + v.toNat)
  else if v.toNat ≤ 51 then BitVec.ofNat 8 (71 + v.toNat)
  else if v.toNat ≤ 61 then BitVec.ofNat 8 (v.toNat - 4)
  else if v.toNat = 62 then 43
  else 47

/-- The value of a symbol, by R112; `none` is the sentinel INVALID (93_implementation_defined.md 11). -/
def valueFor (c : Byte) : Option Sextet :=
  if 0x41 ≤ c.toNat ∧ c.toNat ≤ 0x5A then some (BitVec.ofNat 6 (c.toNat - 65))
  else if 0x61 ≤ c.toNat ∧ c.toNat ≤ 0x7A then some (BitVec.ofNat 6 (c.toNat - 71))
  else if 0x30 ≤ c.toNat ∧ c.toNat ≤ 0x39 then some (BitVec.ofNat 6 (c.toNat + 4))
  else if c.toNat = 0x2B then some 62
  else if c.toNat = 0x2F then some 63
  else none

/-- Alphabet membership (40_alphabet.md R113). -/
def isAlpha (c : Byte) : Bool := (valueFor c).isSome

end Sys2Proof.Machine
end

