-- ==== Sys2Proof/Machine/Stream.lean ====
section
/-! DEFINITION. Bit streams (00_scope.md R7) and the integer functions over them (R8). -/

namespace Sys2Proof.Machine

/-- `bits8(b)`: most significant bit first, `bits8(b)[k] = b[7-k]` (R7). -/
def bits8 (b : Byte) : List Bool := (List.range 8).map fun k => b.getLsbD (7 - k)

/-- `bits6(v)`: most significant bit first, `bits6(v)[k] = v[5-k]` (R7). -/
def bits6 (v : Sextet) : List Bool := (List.range 6).map fun k => v.getLsbD (5 - k)

/-- `val(s)`: the first bit is the most significant (R7). -/
def bitsVal : List Bool → Nat
  | [] => 0
  | b :: s => b.toNat * 2 ^ s.length + bitsVal s

/-- The sub-stream `s[i..i+w)` (R7). -/
def slice (s : List Bool) (i w : Nat) : List Bool := (s.drop i).take w

/-- `ceil(a/b)` (R8). -/
def ceilDiv (a b : Nat) : Nat := (a + (b - 1)) / b

end Sys2Proof.Machine
end

