-- ==== Sys2Proof/Machine/Decoder.lean ====
section
/-! DEFINITION. The 6b to 8b transformation (43_decoder.md R181-R184, R188). -/

namespace Sys2Proof.Machine

/-- Step 1, the values of the symbols (R181); `none` where a symbol has no value, which a validated sequence never has (R185). -/
def symbolValues : List Byte → Option (List Sextet)
  | [] => some []
  | c :: S =>
    match valueFor c, symbolValues S with
    | some v, some vs => some (v :: vs)
    | _, _ => none

/-- Steps 2-4, regrouping: `m = floor(6k/8)` bytes; the bits after them are discarded (R182, R183). -/
def regroup (vs : List Sextet) : List Byte :=
  (List.range (6 * vs.length / 8)).map fun j => BitVec.ofNat 8 (bitsVal (slice (vs.flatMap bits6) (8 * j) 8))

/-- `decodeSymbols(S)` (R182). -/
def decodeSymbols (S : List Byte) : Option (List Byte) := (symbolValues S).map regroup

/-- The closed form, four values at a time (R184). -/
def regroupGroups : List Sextet → List Byte
  | [] => []
  | [_] => []
  | [a, b] => [a ++ b.extractLsb' 4 2]
  | [a, b, c] => [a ++ b.extractLsb' 4 2, b.extractLsb' 0 4 ++ c.extractLsb' 2 4]
  | a :: b :: c :: d :: rest =>
    (a ++ b.extractLsb' 4 2) :: (b.extractLsb' 0 4 ++ c.extractLsb' 2 4) :: (c.extractLsb' 0 2 ++ d) :: regroupGroups rest

/-! ### The reference datapath (R188, informative) -/

/-- The registers of the decoder's datapath. -/
structure DecAcc where
  acc : Nat
  nb : Nat
  out : List Byte
deriving DecidableEq, Repr

/-- `if nb >= 8`: one byte out of the accumulator (R188). -/
def decEmit (r : DecAcc) : DecAcc :=
  if 8 ≤ r.nb then
    { acc := r.acc % 2 ^ (r.nb - 8)
      nb := r.nb - 8
      out := r.out ++ [BitVec.ofNat 8 (r.acc / 2 ^ (r.nb - 8))] }
  else r

/-- One symbol value: `acc := (acc << 6) | v`, then the byte that is full (R188). -/
def decValue (r : DecAcc) (v : Sextet) : DecAcc :=
  decEmit { acc := r.acc * 64 + v.toNat, nb := r.nb + 6, out := r.out }

/-- The accumulator form of the decoder; the remaining bits are discarded (R188). -/
def regroupAccumulator (vs : List Sextet) : List Byte := (vs.foldl decValue ⟨0, 0, []⟩).out

end Sys2Proof.Machine
end

