-- ==== Sys2Proof/Machine/Validator.lean ====
section
/-! DEFINITION. The validator, the first phase of DECODE (42_validator.md R150-R163). -/

namespace Sys2Proof.Machine

/-- What the validator answers (R150). -/
inductive Validated where
  /-- `Ok S`: the cleaned symbol sequence (R157). -/
  | ok (S : List Byte)
  /-- `Err (LengthError L)` (R153). -/
  | lengthError (L : Nat)
  /-- `Err (InvalidCharacter c)` (R156). -/
  | invalidCharacter (c : Byte)
deriving DecidableEq, Repr

/-- Step 1, newline removal (R151). -/
def stripNL (T : List Byte) : List Byte := T.filter fun c => c != NL

/-- Step 3, padding removal, wherever it stands (R154, R160). -/
def stripPAD (T : List Byte) : List Byte := T.filter fun c => c != PAD

/-- Step 4, the alphabet check, fail-fast: the first byte that is no alphabet code (R155, R156). -/
def firstInvalid (T : List Byte) : Option Byte := T.find? fun c => !isAlpha c

/-- The validator as one function (R158): newline removal, length check (R152), padding removal, alphabet check, in that
order. -/
def validate (T : List Byte) : Validated :=
  if (stripNL T).length % 4 ≠ 0 then .lengthError (stripNL T).length
  else
    match firstInvalid (stripPAD (stripNL T)) with
    | some c => .invalidCharacter c
    | none => .ok (stripPAD (stripNL T))

end Sys2Proof.Machine
end

