-- ==== Sys2Proof/Machine/DecodeCommand.lean ====
section
/-! DEFINITION. DECODE: its command and the engine step that completes it (43_decoder.md R180). -/

namespace Sys2Proof.Machine

/-- The DECODE command: ignored while BUSY (44_control.md R200); otherwise `startOp(DECODE)` (R201, R202). -/
def execDecode (s : State) : StepResult :=
  if s.state = .busy then .next s else startOp .decode s

/-- `raise UnmappableGroup`: the internal-consistency fault of 43_decoder.md R185, with the implementation-defined ERR_INFO and
OUT_MEM of 93_implementation_defined.md 3 and 4. No validated text reaches it (`decodeSymbols_of_validate`), so no step of the
model produces it (93_implementation_defined.md 5); log entry 10. -/
def raiseUnmappable (S : List Byte) (s : State) : State :=
  State.raiseInEngine .unmappable (Config.unmappableInfo S)
    (State.storeOut ((List.range s.params.outCap).map (Config.unmappableByte S)) s)

/-- The decode phase, after the validator accepted `S` (43_decoder.md R180, R186). -/
def decodePhase (S : List Byte) (s : State) : State :=
  match decodeSymbols S with
  | some D => State.complete D.length (State.storeOut D s)
  | none => raiseUnmappable S s

/-- The whole DECODE of a raw text (43_decoder.md R180): a validator error ends it before the decode phase begins, with its
diagnostic (42_validator.md R153, R156, R162). -/
def decodeText (T : List Byte) (s : State) : State :=
  match validate T with
  | .lengthError L => State.raiseInEngine .length (BitVec.ofNat 32 L) s
  | .invalidCharacter c => State.raiseInEngine .invalidChar (c.setWidth 32) s
  | .ok S => decodePhase S s

/-- The engine step when `pending == some(DECODE, n)` (43_decoder.md R180). -/
def completeDecode (n : Nat) (s : State) : StepResult :=
  match Memory.readBytes s.inMem 0 n with
  | some T => .next (decodeText T s)
  | none => .fault .unwrittenInput

end Sys2Proof.Machine
end

