-- ==== Sys2Proof/Machine/Encoder.lean ====
section
/-! DEFINITION. The 8b to 6b transformation (41_encoder.md R131-R134, R138). -/

namespace Sys2Proof.Machine

/-- The number of sextets `q = ceil(8n/6)` (R131). -/
def sextetCount (n : Nat) : Nat := ceilDiv (8 * n) 6

/-- The symbol-padding count `p = (4 - (q mod 4)) mod 4` (R133). -/
def padCount (q : Nat) : Nat := (4 - q % 4) % 4

/-- The value-padded bit stream `s'` of the input (R131 steps 1 and 2, R132). -/
def paddedStream (B : List Byte) : List Bool :=
  B.flatMap bits8 ++ List.replicate (6 * sextetCount B.length - 8 * B.length) false

/-- The symbols of the input, before symbol-padding (R131 step 3). -/
def encodeSymbols (B : List Byte) : List Byte :=
  (List.range (sextetCount B.length)).map fun g =>
    symbolFor (BitVec.ofNat 6 (bitsVal (slice (paddedStream B) (6 * g) 6)))

/-- `encodeBytes(B)`, the source's four steps (R131). -/
def encodeBytes (B : List Byte) : List Byte :=
  encodeSymbols B ++ List.replicate (padCount (sextetCount B.length)) PAD

/-- The closed form, three bytes at a time (R134). -/
def encodeGroups : List Byte → List Byte
  | [] => []
  | [b0] => [symbolFor (b0.extractLsb' 2 6), symbolFor (b0.extractLsb' 0 2 ++ 0#4), PAD, PAD]
  | [b0, b1] =>
    [symbolFor (b0.extractLsb' 2 6), symbolFor (b0.extractLsb' 0 2 ++ b1.extractLsb' 4 4),
      symbolFor (b1.extractLsb' 0 4 ++ 0#2), PAD]
  | b0 :: b1 :: b2 :: rest =>
    symbolFor (b0.extractLsb' 2 6) :: symbolFor (b0.extractLsb' 0 2 ++ b1.extractLsb' 4 4) ::
      symbolFor (b1.extractLsb' 0 4 ++ b2.extractLsb' 6 2) :: symbolFor (b2.extractLsb' 0 6) :: encodeGroups rest

/-! ### The reference datapath (R138, informative) -/

/-- The registers of the encoder's datapath: the bit accumulator, its bit count, and the symbols emitted so far. -/
structure EncAcc where
  acc : Nat
  nb : Nat
  out : List Byte
deriving DecidableEq, Repr

/-- One symbol out of the accumulator: the body of R138's inner loop. -/
def encEmit (r : EncAcc) : EncAcc :=
  { acc := r.acc % 2 ^ (r.nb - 6)
    nb := r.nb - 6
    out := r.out ++ [symbolFor (BitVec.ofNat 6 (r.acc / 2 ^ (r.nb - 6)))] }

/-- R138's inner loop, `while nb >= 6`; a byte adds 8 bits to at most 5, so two rounds always suffice. -/
def encDrain (r : EncAcc) : EncAcc :=
  let r1 := if 6 ≤ r.nb then encEmit r else r
  if 6 ≤ r1.nb then encEmit r1 else r1

/-- One input byte: `acc := (acc << 8) | b`, then the inner loop. -/
def encByte (r : EncAcc) (b : Byte) : EncAcc :=
  encDrain { acc := r.acc * 256 + b.toNat, nb := r.nb + 8, out := r.out }

/-- R138 after the loop: the last partial group, `if nb > 0`, then PAD until the length is a multiple of 4. -/
def encFinish (r : EncAcc) : List Byte :=
  let E := if 0 < r.nb then r.out ++ [symbolFor (BitVec.ofNat 6 (r.acc * 2 ^ (6 - r.nb)))] else r.out
  E ++ List.replicate (padCount E.length) PAD

/-- The accumulator form of the encoder (R138). -/
def encodeAccumulator (B : List Byte) : List Byte := encFinish (B.foldl encByte ⟨0, 0, []⟩)

end Sys2Proof.Machine
end

