-- ==== Sys2Proof/Machine/EncodeCommand.lean ====
section
/-! DEFINITION. ENCODE: its command and the engine step that completes it (41_encoder.md R130). -/

namespace Sys2Proof.Machine

/-- The ENCODE command: ignored while BUSY (44_control.md R200); otherwise `startOp(ENCODE)` (R201, R202). -/
def execEncode (s : State) : StepResult :=
  if s.state = .busy then .next s else startOp .encode s

/-- The engine step when `pending == some(ENCODE, n)` (41_encoder.md R130): read `IN[0..n-1]`, write the encoding to OUT, complete.
It never fails (R135); the fault is that of unwritten input (20_memory.md R70), which acceptance has already ruled out. -/
def completeEncode (n : Nat) (s : State) : StepResult :=
  match Memory.readBytes s.inMem 0 n with
  | some B => .next (State.complete (encodeBytes B).length (State.storeOut (encodeBytes B) s))
  | none => .fault .unwrittenInput

end Sys2Proof.Machine
end

