-- ==== Sys2Proof/Machine/Engine.lean ====
section
/-! DEFINITION. The engine's turn (44_control.md R206). -/

namespace Sys2Proof.Machine

/-- The engine's turn: "It is the only engine step, and it is enabled exactly when `pending` is some" (44_control.md R206).
Otherwise nothing changes (60_exceptions.md R240). -/
def engineStep (s : State) : StepResult :=
  match s.pending with
  | none => .next s
  | some p =>
    match p.mode with
    | .encode => completeEncode p.n s
    | .decode => completeDecode p.n s

end Sys2Proof.Machine
end

