-- ==== Sys2Proof/Machine/Flags.lean ====
section
/-! DEFINITION. The status bits software can test (10_state.md R34): STATUS and its fields, and the interrupt output (R33). -/

namespace Sys2Proof.Machine

/-- The value of STATUS.STATE (10_state.md R25). -/
def EngineState.code : EngineState → BitVec 2
  | .idle => 0
  | .busy => 1
  | .done => 2
  | .error => 3

/-- The value of STATUS.ERR (10_state.md R26). -/
def ErrCode.code : ErrCode → BitVec 4
  | .none => 0
  | .length => 1
  | .invalidChar => 2
  | .unmappable => 3
  | .param => 4
  | .illegalCmd => 5

/-- A read of STATUS: `zext_32(ERR ++ 0b00 ++ STATE)` (10_state.md R24). -/
def State.statusWord (s : State) : Word := 0#24 ++ s.err.code ++ 0#2 ++ s.state.code

/-- A read of IRQ_EN: bit 0 is IE, the rest reads 0 (10_state.md R30). -/
def State.irqEnWord (s : State) : Word := 0#31 ++ BitVec.ofBool s.ie

/-- The interrupt output, "always a function of the register state" (10_state.md R33). -/
def State.irq (s : State) : Bool := s.ie && (s.state == .done || s.state == .error)

/-- The level R64 drives on input `line` of the platform's interrupt controller: `irq` on IRQ_LINE, nothing elsewhere
(60_exceptions.md R230). -/
def State.irqOnLine (s : State) (line : Nat) : Bool := line == s.params.irqLine && s.irq

end Sys2Proof.Machine
end

