-- ==== Sys2Proof/Machine/Operands.lean ====
section
/-! DEFINITION. What an access operates on: widths and byte lanes of the port (20_memory.md R61, R68), the address map (R60, R64,
R65), and the registers as the host reads and writes them (10_state.md R22-R32). -/

namespace Sys2Proof.Machine

/-! ### Byte lanes -/

/-- The number of bytes of a width. -/
def widthBytes : Width → Nat
  | .w1 => 1
  | .w2 => 2
  | .w4 => 4

/-- The width of a datum. -/
def busWidth : BusData → Width
  | .b1 _ => .w1
  | .b2 _ => .w2
  | .b4 _ => .w4

/-- The width of an access. -/
def accessWidth : AccessOp → Width
  | .read w => w
  | .write d => busWidth d

/-- The bytes of a datum in the order of their offsets: "the byte at `off + k` is bits `[8k+7:8k]` of the data" (20_memory.md
R68). -/
def busBytes : BusData → List Byte
  | .b1 d => [d]
  | .b2 d => [d.extractLsb' 0 8, d.extractLsb' 8 8]
  | .b4 d => [d.extractLsb' 0 8, d.extractLsb' 8 8, d.extractLsb' 16 8, d.extractLsb' 24 8]

/-- The datum whose byte at `off + k` is the list's byte k (20_memory.md R68). -/
def busOfBytes (w : Width) (bs : List Byte) : BusData :=
  match w with
  | .w1 => .b1 (bs.getD 0 0)
  | .w2 => .b2 (bs.getD 1 0 ++ bs.getD 0 0)
  | .w4 => .b4 (bs.getD 3 0 ++ bs.getD 2 0 ++ bs.getD 1 0 ++ bs.getD 0 0)

/-- The datum 0 of a width. -/
def busZero : Width → BusData
  | .w1 => .b1 0
  | .w2 => .b2 0
  | .w4 => .b4 0

/-- A datum as a register's 32 bits; a register access is always 4 bytes wide (20_memory.md R64). -/
def busWord : BusData → Word
  | .b1 d => d.setWidth 32
  | .b2 d => d.setWidth 32
  | .b4 d => d

/-! ### The address map -/

/-- The eight registers (10_state.md R22). -/
inductive Reg where
  | cmd | status | inLen | outLen | errInfo | irqEn | inCap | outCap
deriving DecidableEq, Repr

/-- What an accepted access reaches: a register, or a buffer from a byte index on (20_memory.md R60). -/
inductive Target where
  | reg (r : Reg)
  | inWindow (i : Nat)
  | outWindow (j : Nat)
deriving DecidableEq, Repr

/-- The register at an offset (10_state.md R22). -/
def regAt (off : Offset) : Option Reg :=
  if off = 0x00#18 then some .cmd
  else if off = 0x04#18 then some .status
  else if off = 0x08#18 then some .inLen
  else if off = 0x0C#18 then some .outLen
  else if off = 0x10#18 then some .errInfo
  else if off = 0x14#18 then some .irqEn
  else if off = 0x18#18 then some .inCap
  else if off = 0x1C#18 then some .outCap
  else none

/-- A naturally aligned access of `n` bytes at `o` lies wholly in the window of `cap` bytes at `base` (20_memory.md R65). -/
def inWindowAt (base cap o n : Nat) : Bool :=
  decide (base ≤ o) && decide (o + n ≤ base + cap) && decide (o % n = 0)

/-- The address map: what an access of width `w` at offset `off` reaches; `none` is a bus error (20_memory.md R60, R64-R66). -/
def route (p : Params) (w : Width) (off : Offset) : Option Target :=
  if off.toNat < 0x20 then
    if w = .w4 then (regAt off).map .reg else none
  else if inWindowAt 0x10000 p.inCap off.toNat (widthBytes w) then some (.inWindow (off.toNat - 0x10000))
  else if inWindowAt 0x20000 p.outCap off.toNat (widthBytes w) then some (.outWindow (off.toNat - 0x20000))
  else none

/-- The offset at which an access to a host address reaches the engine; `none` outside the aperture (20_memory.md R60). -/
def apertureOffset (p : Params) (addr : Nat) : Option Offset :=
  if p.base ≤ addr ∧ addr < p.base + apertureSize then some (BitVec.ofNat 18 (addr - p.base)) else none

/-- The command word an access delivers: the data of an aligned 4-byte WRITE to CMD (30_encoding.md R90, 44_control.md R200). -/
def commandWord (a : Access) : Option Word :=
  match a.op with
  | .write (.b4 w) => if a.off = 0x00#18 then some w else none
  | _ => none

/-! ### Registers as the host sees them -/

/-- A host READ of a register (10_state.md R23-R32). It has no side effect (20_memory.md R73). -/
def readReg (s : State) : Reg → Word
  | .cmd => 0
  | .status => s.statusWord
  | .inLen => s.inLen
  | .outLen => s.outLen
  | .errInfo => s.errInfo
  | .irqEn => s.irqEnWord
  | .inCap => BitVec.ofNat 32 s.params.inCap
  | .outCap => BitVec.ofNat 32 s.params.outCap

/-- A host WRITE of a register other than CMD: IN_LEN stores unless BUSY (10_state.md R27), IRQ_EN stores bit 0 at any time (R30),
the read-only registers ignore it (20_memory.md R67). A WRITE to CMD is a command (`commandWord`) and does not come here. -/
def writeReg (w : Word) (s : State) : Reg → State
  | .cmd => s
  | .status => s
  | .inLen => if s.state = .busy then s else State.setInLen w s
  | .outLen => s
  | .errInfo => s
  | .irqEn => State.setIe (w.getLsbD 0) s
  | .inCap => s
  | .outCap => s

end Sys2Proof.Machine
end

