-- ==== Sys2Proof/Machine/Port.lean ====
section
/-! DEFINITION. The host port: every access that is not a command write (20_memory.md R61-R71). -/

namespace Sys2Proof.Machine

/-- The answer of an accepted WRITE. -/
def writeDone : Response := { error := false, data := none }

/-- The answer of an accepted READ. -/
def readDone (d : BusData) : Response := { error := false, data := some d }

/-- The bus-error response: "A READ that gets a bus error returns 0 as its data" (20_memory.md R66). -/
def busError : AccessOp → Response
  | .read w => { error := true, data := some (busZero w) }
  | .write _ => { error := true, data := none }

/-- What a READ returns: a register, IN_MEM in every STATE (20_memory.md R69), OUT_MEM or, while BUSY, 0 for every byte (R71).
`none` where a byte it returns has not been written since reset. -/
def readTarget (w : Width) (s : State) : Target → Option BusData
  | .reg r => some (.b4 (readReg s r))
  | .inWindow i => (Memory.readBytes s.inMem i (widthBytes w)).map (busOfBytes w)
  | .outWindow j =>
    if s.state = .busy then some (busZero w)
    else (Memory.readBytes s.outMem j (widthBytes w)).map (busOfBytes w)

/-- What a WRITE does: a register (`writeReg`), IN_MEM unless BUSY (20_memory.md R69), nothing to the OUT window (R67). -/
def writeTarget (d : BusData) (s : State) : Target → State
  | .reg r => writeReg (busWord d) s r
  | .inWindow i => if s.state = .busy then s else State.storeIn i (busBytes d) s
  | .outWindow _ => s

/-- A host access other than a command write. A bus error "has no effect on any engine state" and the machine goes on (R66;
DEDUCED, log entry 4); a READ of an unwritten byte faults (R69, R71). -/
def portAccess (a : Access) (s : State) : StepResult :=
  match route s.params (accessWidth a.op) a.off with
  | none => .next (State.respond (busError a.op) s)
  | some t =>
    match a.op with
    | .read w =>
      match readTarget w s t with
      | some d => .next (State.respond (readDone d) s)
      | none => .fault .unwrittenRead
    | .write d => .next (State.respond writeDone (writeTarget d s t))

end Sys2Proof.Machine
end

