-- ==== Sys2Proof/Machine/Step.lean ====
section
/-! DEFINITION. One step of R64: the next turn of the interleaving of host accesses, engine turns and resets (20_memory.md R75,
44_control.md R206). -/

namespace Sys2Proof.Machine

/-- A command write, `cmdWrite(w)` (44_control.md R200): the decoded command, or IllegalCommand. The BUSY check stands in `exec`'s
meanings and in `illegalCmd`. -/
def cmdWrite (w : Word) (s : State) : StepResult :=
  match decodeCmd w with
  | .command i => exec i s
  | .illegal => .next (illegalCmd w s)

/-- A host access (20_memory.md R61): a command write, or an access to a register or a buffer. -/
def hostStep (a : Access) (s : State) : StepResult :=
  match commandWord a with
  | some w => cmdWrite w (State.respond writeDone s)
  | none => portAccess a s

/-- One turn. An access to a host address outside the aperture does not reach the engine (20_memory.md R60; DEDUCED, log entry 16). -/
def turn (e : Event) (s : State) : StepResult :=
  match e with
  | .host a => hostStep a s
  | .bus b =>
    match apertureOffset s.params b.addr with
    | some off => hostStep ⟨b.op, off⟩ s
    | none => .next s
  | .engine => engineStep s
  | .reset => .next (State.applyReset s)

/-- One step: the turn at the head of the list. When no turn is left the engine takes its own, so a pending operation completes
(70_reset_and_hazards.md R263) and otherwise nothing changes (60_exceptions.md R240); log entry 2. -/
def step (s : State) : Host.Outcome State Fault Refusal :=
  match s.events with
  | [] => engineStep s
  | e :: es => turn e (State.withEvents es s)

/-- A state whose next turn writes the given command word to CMD: R64 fetches nothing, and a command exists only as the data of a
WRITE to CMD (20_memory.md R78, 44_control.md R200). The bits above `nbits` are 0; log entry 11. -/
def State.withFetchWord (s : State) (nbits w : Nat) : State :=
  State.withEvents (.host ⟨.write (.b4 (BitVec.ofNat 32 (w % 2 ^ nbits))), 0x00#18⟩ :: s.events) s

end Sys2Proof.Machine
end

