-- ==== Sys2Proof/Machine/HostProgram.lean ====
section
/-! DEFINITION. The host-program notation (30_encoding.md R96, R97): what a host statement sends to the port, and how a host program
drives the engine. The host is an agent outside R64 (R208): nothing of this file is part of `step`. -/

namespace Sys2Proof.Machine

/-- A host statement: "either a bus access, which has an encoding, or host-side control, which has none" (R96). Host variables and
labels are numbered. -/
inductive HostStmt where
  /-- `W32`, `W16`, `W8`. -/
  | write (off : Offset) (d : BusData)
  /-- `R32`, `R16`, `R8`: the result is bound to host variable `x`. -/
  | read (w : Width) (off : Offset) (x : Nat)
  | label (l : Nat)
  /-- `BEQ x, mask, v, label`. -/
  | beq (x : Nat) (mask v : Word) (l : Nat)
  /-- `BNE x, mask, v, label`. -/
  | bne (x : Nat) (mask v : Word) (l : Nat)
  | halt
deriving DecidableEq, Repr

/-- The bus encoding of a statement (R96); `none` for host-side control. -/
def busEncoding : HostStmt → Option Access
  | .write off d => some ⟨.write d, off⟩
  | .read w off _ => some ⟨.read w, off⟩
  | .label _ => none
  | .beq _ _ _ _ => none
  | .bne _ _ _ _ => none
  | .halt => none

/-- The pseudo-instructions (R97). `wait` names its variable and its label, which R97 wants fresh; that the label is fresh is the
program's to see to, and what a label that stands twice does is the model's choice (DESIGN CHOICE, log entry 14). -/
inductive Pseudo where
  | command (i : Instr)
  | setlen (n : Word)
  | irqOn
  | irqOff
  | loadb (i : Nat) (bs : List Byte)
  | wait (s l : Nat)
deriving DecidableEq, Repr

/-- `LOADB i, [b0, ..., bk-1]`: one byte write each, in increasing offset order (R97). Where `IN+i+k` is 0x40000 or more it is no
aperture offset and R97 gives it no meaning: the model takes it modulo 2^18 (DESIGN CHOICE, log entry 17). -/
def loadBytes : Nat → List Byte → List HostStmt
  | _, [] => []
  | i, b :: bs => .write (BitVec.ofNat 18 (0x10000 + i)) (.b1 b) :: loadBytes (i + 1) bs

/-- The expansions of R97. -/
def expand : Pseudo → List HostStmt
  | .command i => [.write 0x00#18 (.b4 (encode i))]
  | .setlen n => [.write 0x08#18 (.b4 n)]
  | .irqOn => [.write 0x14#18 (.b4 1)]
  | .irqOff => [.write 0x14#18 (.b4 0)]
  | .loadb i bs => loadBytes i bs
  | .wait s l => [.label l, .read .w4 0x04#18 s, .beq s 0x3 0x1 l]

/-- A host running a program beside the engine. `turns` says who moves next, `true` the engine; where it ends, the engine moves
while an operation is pending and the host otherwise, which is fair (70_reset_and_hazards.md R263). -/
structure HostRun where
  prog : List HostStmt
  pc : Nat
  vars : List (Nat × Word)
  turns : List Bool
  engine : State
deriving DecidableEq, Repr

/-- The value of a host variable; one that no read has bound has a free value (log entry 14). -/
def hostVar (vars : List (Nat × Word)) (x : Nat) : Word := (vars.lookup x).getD (Config.unboundHostVar x)

/-- The place of a label: its first occurrence where it stands more than once, past the end where there is none. R96 states neither
(DESIGN CHOICE, log entry 14). -/
def labelPlace (prog : List HostStmt) (l : Nat) : Nat := prog.findIdx fun st => decide (st = .label l)

/-- What a READ bound: the response's data as 32 bits (R96), a narrower datum zero-extended (DEDUCED, log entry 14). -/
def responseWord (s : State) : Word :=
  match s.response with
  | some r =>
    match r.data with
    | some d => busWord d
    | none => 0
  | none => 0

/-- Send an access to the port: it is the engine's next turn. -/
def sendAccess (a : Access) (s : State) : StepResult := step (State.withEvents (.host a :: s.events) s)

/-- The run after an access was answered, the host's own part updated by `f`. -/
def afterAccess (f : State → HostRun) : StepResult → Host.Outcome HostRun Fault Refusal
  | .next t => .next (f t)
  | .fault r => .fault r
  | .refused r => .refused r

/-- One host statement (R96). A halted program changes nothing, nor does one whose end was passed without HALT (DESIGN CHOICE, log
entry 14). -/
def hostStatement (h : HostRun) : Host.Outcome HostRun Fault Refusal :=
  match h.prog[h.pc]? with
  | none => .next h
  | some .halt => .next h
  | some (.label _) => .next { h with pc := h.pc + 1 }
  | some (.beq x mask v l) =>
    .next { h with pc := if hostVar h.vars x &&& mask = v then labelPlace h.prog l else h.pc + 1 }
  | some (.bne x mask v l) =>
    .next { h with pc := if hostVar h.vars x &&& mask = v then h.pc + 1 else labelPlace h.prog l }
  | some (.write off d) =>
    afterAccess (fun t => { h with pc := h.pc + 1, engine := t }) (sendAccess ⟨.write d, off⟩ h.engine)
  | some (.read w off x) =>
    afterAccess (fun t => { h with pc := h.pc + 1, vars := (x, responseWord t) :: h.vars, engine := t })
      (sendAccess ⟨.read w, off⟩ h.engine)

/-- The engine's turn beside a host program. -/
def hostEngineTurn (h : HostRun) : Host.Outcome HostRun Fault Refusal :=
  afterAccess (fun t => { h with engine := t }) (turn .engine h.engine)

/-- One step of the host and the engine together: one of them moves (20_memory.md R75). -/
def hostRunStep (h : HostRun) : Host.Outcome HostRun Fault Refusal :=
  match h.turns with
  | true :: ts => hostEngineTurn { h with turns := ts }
  | false :: ts => hostStatement { h with turns := ts }
  | [] => if h.engine.pending.isSome then hostEngineTurn h else hostStatement h

end Sys2Proof.Machine
end

