-- ==== Sys2Proof/Machine/RoundTrip.lean ====
section
/-! DEFINITION. A whole operation, and the round trip that 41_encoder.md R139 speaks of: ENCODE, copy the text back, DECODE. The host
performs it; nothing of this file is part of `step`. -/

namespace Sys2Proof.Machine

/-- A command and the engine's turn after it: one whole operation (44_control.md R201, R206). -/
def runOperation (i : Instr) (s : State) : StepResult :=
  match exec i s with
  | .next t => turn .engine t
  | .fault r => .fault r
  | .refused r => .refused r

/-- The next state of an outcome, if it has one. -/
def nextState : StepResult → Option State
  | .next t => some t
  | .fault _ => none
  | .refused _ => none

/-- The host's part of R139(c): "copying `OUT[0..m-1]` into `IN[0..m-1]`, setting IN_LEN = m", with m = OUT_LEN. `none` unless
"m <= IN_CAP so the text fits in IN_MEM", or where a byte of the result is unwritten, which never is so after an ENCODE. -/
def copyResultBack (s : State) : Option State :=
  if s.outLen.toNat ≤ s.params.inCap then
    (Memory.readBytes s.outMem 0 s.outLen.toNat).map fun E => State.setInLen s.outLen (State.storeIn 0 E s)
  else none

/-- The round trip of R139(c): ENCODE, the copy, DECODE; `none` where one of the three does not end in a next state. -/
def roundTrip (s : State) : Option State :=
  ((nextState (runOperation .encode s)).bind copyResultBack).bind fun v => nextState (runOperation .decode v)

end Sys2Proof.Machine
end

