-- ==== Sys2Proof/Safety.lean ====
section
/-! DEFINITION. What claims are stated in: the invariant of R64's state, and which turns the model stops on. -/

namespace Sys2Proof.Machine

/-- A buffer in canonical form, inside its capacity (10_state.md R36, R37). -/
def bufferOk (cap : Nat) (m : Memory) : Bool := Memory.wf m && m.all fun c => decide (c.1 < cap)

/-- "STATE is BUSY exactly when an operation is pending" (10_state.md R25, R35). -/
def State.latchOk (s : State) : Bool := decide (s.state = .busy) == s.pending.isSome

/-- The latched operand: n is IN_LEN as it stood at acceptance and cannot change while BUSY, within capacity, its bytes written
(44_control.md R201, 70_reset_and_hazards.md R256, R257). -/
def State.operandOk (s : State) : Bool :=
  match s.pending with
  | none => true
  | some p => decide (p.n = s.inLen.toNat) && decide (p.n ≤ s.params.inCap) && Memory.written s.inMem p.n

/-- "ERR is nonzero exactly when STATE is ERROR" (10_state.md R26). -/
def State.errOk (s : State) : Bool := decide (s.err ≠ .none) == decide (s.state = .error)

/-- ERR_INFO holds what the table of 10_state.md R29 says for the code in ERR. UNMAPPABLE never stands (43_decoder.md R185). -/
def State.errInfoOk (s : State) : Bool :=
  match s.err with
  | .none => s.errInfo == 0
  | .length => s.errInfo.toNat % 4 != 0 && decide (s.errInfo.toNat ≤ s.params.inCap)
  | .invalidChar =>
    decide (s.errInfo.toNat < 256) && !isAlpha (s.errInfo.setWidth 8) && s.errInfo != 0x0A && s.errInfo != 0x3D
  | .unmappable => false
  | .param => decide (s.params.inCap < s.errInfo.toNat)
  | .illegalCmd => decodeCmd s.errInfo == .illegal

/-- "Legal values run from 0 to OUT_CAP" (10_state.md R28), the result's bytes are written, and OUT_LEN is 0 while BUSY and in
ERROR. -/
def State.outLenOk (s : State) : Bool :=
  decide (s.outLen.toNat ≤ s.params.outCap) && Memory.written s.outMem s.outLen.toNat &&
    (decide (s.state = .idle) || decide (s.state = .done) || s.outLen == 0)

/-- The invariant of R64's state. -/
def State.inv (s : State) : Bool :=
  s.params.wf && bufferOk s.params.inCap s.inMem && bufferOk s.params.outCap s.outMem && s.latchOk && s.operandOk && s.errOk &&
    s.errInfoOk && s.outLenOk

/-- A command that would start an operation over unwritten input (70_reset_and_hazards.md R257). -/
def startsUnwritten (i : Instr) (s : State) : Bool :=
  match i with
  | .encode | .decode =>
    decide (s.state ≠ .busy) && decide (s.inLen.toNat ≤ s.params.inCap) && !Memory.written s.inMem s.inLen.toNat
  | .ack => false

/-- An access the model stops on: a command over unwritten input, or a READ of an unwritten byte. -/
def accessStops (a : Access) (s : State) : Bool :=
  match commandWord a with
  | some w =>
    match decodeCmd w with
    | .command i => startsUnwritten i s
    | .illegal => false
  | none =>
    match a.op, route s.params (accessWidth a.op) a.off with
    | .read w, some t => (readTarget w s t).isNone
    | _, _ => false

/-- The access the next turn makes at the engine's port, if it makes one (20_memory.md R60, R61). -/
def State.nextAccess (s : State) : Option Access :=
  match s.events with
  | [] => none
  | .host a :: _ => some a
  | .bus b :: _ => (apertureOffset s.params b.addr).map fun off => ⟨b.op, off⟩
  | .engine :: _ => none
  | .reset :: _ => none

/-- The next turn is the engine's: its own event, or no event is left. -/
def State.engineNext (s : State) : Bool :=
  match s.events with
  | [] => true
  | .engine :: _ => true
  | .host _ :: _ => false
  | .bus _ :: _ => false
  | .reset :: _ => false

/-- The next turn is a reset. -/
def State.resetNext (s : State) : Bool :=
  match s.events with
  | .reset :: _ => true
  | _ => false

/-- The next step is safe: it is none of the two stops. -/
def State.safe (s : State) : Bool :=
  match s.nextAccess with
  | some a => !accessStops a s
  | none => true

end Sys2Proof.Machine
end

