-- ==== Sys2Proof/Certificates/Slice0/Obligations.lean ====
section
/-! DEFINITION. The statements for the provers. Each docstring names the rule of spec/ it formalises. Where a statement speaks of
`response` or `events`, those are the model's own fields (log entries 1 and 3). -/

open Sys2Proof Sys2Proof.Machine

/-! ### Commands and their words -/

/-- 30_encoding.md R93: the decoder is a total function of the word, and exactly three words are commands. -/
def Obligations.CommandDecoderReadsExactlyThreeWords : Prop :=
  decodeCmd 0x00000001#32 = .command .encode ∧ decodeCmd 0x00000002#32 = .command .decode ∧
    decodeCmd 0x00000003#32 = .command .ack ∧
    ∀ w : Word, w ≠ 0x00000001#32 → w ≠ 0x00000002#32 → w ≠ 0x00000003#32 → decodeCmd w = .illegal

/-- 30_encoding.md section 1: a word selects a command only when RSV is 0, and then OP selects it; the well-formedness check on words
accepts exactly the words the decoder accepts. -/
def Obligations.CommandFieldsSelectTheCommand : Prop :=
  ∀ w : Word,
    decodeCmd w =
      (if rsvField w ≠ 0 then .illegal
       else if opField w = 1 then .command .encode
       else if opField w = 2 then .command .decode
       else if opField w = 3 then .command .ack
       else .illegal) ∧
    (wfCommandWord w = true ↔ decodeCmd w ≠ .illegal)

/-- Decoding the word of an instruction gives it back, through both decoders, and no other word does. -/
def Obligations.DecodeOfEncodeIsTheInstruction : Prop :=
  ∀ i : Instr,
    decodeCmd (encode i) = .command i ∧ decodeTableWord 32 (encode i).toNat = some i ∧
      ∀ w : Word, decodeCmd w = .command i → w = encode i

/-- 44_control.md R200 and 20_memory.md R78: a WRITE of a command's word to CMD runs that command, after the turn is taken and the
port has answered the WRITE (the two fields of the model's own, log entries 1 and 3). -/
def Obligations.StepRunsTheDecodedCommand : Prop :=
  (∀ (s : State) (w : Word) (i : Instr) (es : List Event),
    s.events = .host ⟨.write (.b4 w), 0x00#18⟩ :: es → decodeCmd w = .command i →
      step s = exec i { s with events := es, response := some ⟨false, none⟩ }) ∧
  ∀ (s : State) (nbits w : Nat) (i : Instr),
    decodeTableWord nbits w = some i →
      step (s.withFetchWord nbits w) = exec i { s with response := some ⟨false, none⟩ }

/-- 44_control.md R205: every word other than the three commands' raises IllegalCommand in the host step of the write, outside
BUSY; 0 is one of them, and nothing else of the state changes. -/
def Obligations.IllegalWordsRaiseIllegalCommand : Prop :=
  ∀ (s : State) (w : Word) (es : List Event),
    s.events = .host ⟨.write (.b4 w), 0x00#18⟩ :: es → s.state ≠ .busy →
    (w ≠ 0x00000001#32 ∧ w ≠ 0x00000002#32 ∧ w ≠ 0x00000003#32) →
      step s = .next { s with
        events := es, response := some ⟨false, none⟩, outLen := 0, errInfo := w, err := .illegalCmd, state := .error }

/-- 44_control.md R200: a command write in BUSY is dropped whole, whatever the word is. -/
def Obligations.CommandWritesWhileBusyAreDropped : Prop :=
  (∀ (s : State) (i : Instr), s.state = .busy → exec i s = .next s) ∧
  ∀ (s : State) (w : Word) (es : List Event),
    s.events = .host ⟨.write (.b4 w), 0x00#18⟩ :: es → s.state = .busy →
      step s = .next { s with events := es, response := some ⟨false, none⟩ }

/-! ### The alphabet -/

/-- 40_alphabet.md R114: the two tables are inverse bijections between the 64 values and the 64 codes. -/
def Obligations.AlphabetTablesAreInverse : Prop :=
  (∀ v : Sextet, valueFor (symbolFor v) = some v) ∧
  (∀ (c : Byte) (v : Sextet), valueFor c = some v → symbolFor v = c) ∧
  (∀ v v' : Sextet, symbolFor v = symbolFor v' → v = v') ∧
  ∀ c : Byte, (∃ v : Sextet, symbolFor v = c) ↔ isAlpha c = true

/-- 40_alphabet.md R113: exactly these 64 byte codes are alphabet codes. -/
def Obligations.AlphabetIsExactlyTheSixtyFourCodes : Prop :=
  (∀ c : Byte, isAlpha c = true ↔ valueFor c ≠ none) ∧
  (∀ c : Byte, isAlpha c = true ↔
    c.toNat = 0x2B ∨ c.toNat = 0x2F ∨ (0x30 ≤ c.toNat ∧ c.toNat ≤ 0x39) ∨ (0x41 ≤ c.toNat ∧ c.toNat ≤ 0x5A) ∨
      (0x61 ≤ c.toNat ∧ c.toNat ≤ 0x7A)) ∧
  ((List.range 256).filter fun n => isAlpha (BitVec.ofNat 8 n)).length = 64

/-! ### The encoder -/

/-- 41_encoder.md section 2: an encoding of n bytes has `4 * ceil(n/3)` bytes, a multiple of 4, and never more than OUT_CAP. -/
def Obligations.EncodingHasFourBytesPerThree : Prop :=
  ∀ B : List Byte,
    (encodeBytes B).length = 4 * ceilDiv B.length 3 ∧ (encodeBytes B).length % 4 = 0 ∧
      ∀ p : Params, p.wf = true → B.length ≤ p.inCap → (encodeBytes B).length ≤ p.outCap

/-- 41_encoder.md R133: the symbol-padding count, its three cases, and that PAD stands only at the end. -/
def Obligations.SymbolPaddingFollowsTheLength : Prop :=
  ∀ B : List Byte, ∃ S : List Byte,
    encodeBytes B = S ++ List.replicate ((4 - S.length % 4) % 4) 0x3D#8 ∧
    S.length = ceilDiv (8 * B.length) 6 ∧ (∀ c ∈ S, isAlpha c = true) ∧ (∀ c ∈ S, c ≠ 0x3D#8) ∧
    (B.length % 3 = 0 → S.length = 4 * B.length / 3 ∧ 6 * S.length - 8 * B.length = 0 ∧ encodeBytes B = S) ∧
    (B.length % 3 = 1 →
      S.length = 4 * (B.length - 1) / 3 + 2 ∧ 6 * S.length - 8 * B.length = 4 ∧ encodeBytes B = S ++ [0x3D#8, 0x3D#8]) ∧
    (B.length % 3 = 2 →
      S.length = 4 * (B.length - 2) / 3 + 3 ∧ 6 * S.length - 8 * B.length = 2 ∧ encodeBytes B = S ++ [0x3D#8])

/-- 41_encoder.md R134: the closed form, three bytes at a time, is the encoding. -/
def Obligations.EncoderClosedFormIsTheEncoding : Prop := ∀ B : List Byte, encodeGroups B = encodeBytes B

/-- 41_encoder.md R138: the accumulator datapath emits the encoding of every input, and its registers stay within 14 and 13. -/
def Obligations.EncoderDatapathRefinesTheEncoding : Prop :=
  (∀ B : List Byte, encodeAccumulator B = encodeBytes B) ∧
  ∀ (B : List Byte) (b : Byte),
    (B.foldl encByte ⟨0, 0, []⟩).nb + 8 ≤ 13 ∧ (B.foldl encByte ⟨0, 0, []⟩).acc * 256 + b.toNat < 2 ^ 14

/-! ### The validator -/

/-- 42_validator.md R151, R152, R154, R155, R157: what each verdict of the validator says of the text. -/
def Obligations.ValidatorVerdictsAreTheFourSteps : Prop :=
  ∀ T T1 T2 : List Byte, T1 = T.filter (fun c => c != 0x0A#8) → T2 = T1.filter (fun c => c != 0x3D#8) →
    (∀ L : Nat, validate T = .lengthError L ↔ L = T1.length ∧ L % 4 ≠ 0) ∧
    (∀ c : Byte, validate T = .invalidCharacter c ↔
      T1.length % 4 = 0 ∧ ∃ before after : List Byte,
        T2 = before ++ c :: after ∧ (∀ x ∈ before, valueFor x ≠ none) ∧ valueFor c = none) ∧
    (∀ S : List Byte, validate T = .ok S ↔ T1.length % 4 = 0 ∧ S = T2 ∧ ∀ x ∈ T2, valueFor x ≠ none) ∧
    T2.length ≤ T1.length

/-- 42_validator.md R161, the corrected idempotence law. -/
def Obligations.RevalidationFailsOnlyByLength : Prop :=
  ∀ T S : List Byte, validate T = .ok S →
    (S.length % 4 = 0 → validate S = .ok S) ∧ (S.length % 4 ≠ 0 → validate S = .lengthError S.length)

/-- 43_decoder.md R187: the six non-canonical texts ("Zm=9", "====", "A===", "TR==", "Zm9v====", "=Zm9v===") and what they decode
to. -/
def Obligations.NonCanonicalTextsDecodeAsTheTableSays : Prop :=
  (validate [0x5A, 0x6D, 0x3D, 0x39] = .ok [0x5A, 0x6D, 0x39] ∧ decodeSymbols [0x5A, 0x6D, 0x39] = some [0x66, 0x6F]) ∧
  (validate [0x3D, 0x3D, 0x3D, 0x3D] = .ok [] ∧ decodeSymbols [] = some []) ∧
  (validate [0x41, 0x3D, 0x3D, 0x3D] = .ok [0x41] ∧ decodeSymbols [0x41] = some []) ∧
  (validate [0x54, 0x52, 0x3D, 0x3D] = .ok [0x54, 0x52] ∧ decodeSymbols [0x54, 0x52] = some [0x4D]) ∧
  (validate [0x5A, 0x6D, 0x39, 0x76, 0x3D, 0x3D, 0x3D, 0x3D] = .ok [0x5A, 0x6D, 0x39, 0x76] ∧
    validate [0x3D, 0x5A, 0x6D, 0x39, 0x76, 0x3D, 0x3D, 0x3D] = .ok [0x5A, 0x6D, 0x39, 0x76] ∧
    decodeSymbols [0x5A, 0x6D, 0x39, 0x76] = some [0x66, 0x6F, 0x6F])

/-! ### The decoder -/

/-- 43_decoder.md R183 with R182's length: a validated text of k symbols decodes to `floor(6k/8)` bytes; 0, 6, 4 or 2 bits are
discarded, never more than 6. -/
def Obligations.DecodingHasThreeBytesPerFour : Prop :=
  ∀ T S : List Byte, validate T = .ok S →
    ∃ D : List Byte, decodeSymbols S = some D ∧ D.length = 6 * S.length / 8 ∧ D.length = 3 * S.length / 4 ∧
      6 * S.length - 8 * D.length = 6 * S.length % 8 ∧ 6 * S.length - 8 * D.length ≤ 6 ∧
      (S.length % 4 = 0 → 6 * S.length - 8 * D.length = 0) ∧ (S.length % 4 = 1 → 6 * S.length - 8 * D.length = 6) ∧
      (S.length % 4 = 2 → 6 * S.length - 8 * D.length = 4) ∧ (S.length % 4 = 3 → 6 * S.length - 8 * D.length = 2)

/-- 43_decoder.md R184: the closed form, four values at a time, is the regrouping. -/
def Obligations.DecoderClosedFormIsTheRegrouping : Prop := ∀ vs : List Sextet, regroupGroups vs = regroup vs

/-- 43_decoder.md R188: the accumulator datapath emits the decoding of every symbol sequence, within 14 and 13. -/
def Obligations.DecoderDatapathRefinesTheRegrouping : Prop :=
  (∀ vs : List Sextet, regroupAccumulator vs = regroup vs) ∧
  (∀ (S : List Byte) (vs : List Sextet), symbolValues S = some vs → decodeSymbols S = some (regroupAccumulator vs)) ∧
  ∀ (vs : List Sextet) (v : Sextet),
    (vs.foldl decValue ⟨0, 0, []⟩).nb + 6 ≤ 13 ∧ (vs.foldl decValue ⟨0, 0, []⟩).acc * 64 + v.toNat < 2 ^ 14

/-- 43_decoder.md R189: decoding an encoding gives the bytes back, for every byte list. -/
def Obligations.DecodeOfEncodingIsTheInput : Prop :=
  ∀ B : List Byte, ∃ S : List Byte,
    S = (encodeBytes B).filter (fun c => c != 0x3D#8) ∧ validate (encodeBytes B) = .ok S ∧ decodeSymbols S = some B

/-! ### Commands: acceptance, rejection, acknowledge -/

/-- 44_control.md R201: outside BUSY, with IN_LEN within IN_CAP and every input byte written, ENCODE and DECODE are accepted: the
result registers cleared, the operands latched, BUSY entered, `irq` at 0; everything else, both buffers among it, unchanged. -/
def Obligations.EncodeAndDecodeAreAccepted : Prop :=
  ∀ s : State, s.state ≠ .busy → s.inLen.toNat ≤ s.params.inCap →
    (∀ i < s.inLen.toNat, Memory.read s.inMem i ≠ none) →
    (∃ t : State, exec .encode s = .next t ∧ t.irq = false ∧
      t = { s with
        outLen := 0, errInfo := 0, err := .none, pending := some ⟨.encode, s.inLen.toNat⟩, state := .busy }) ∧
    (∃ t : State, exec .decode s = .next t ∧ t.irq = false ∧
      t = { s with
        outLen := 0, errInfo := 0, err := .none, pending := some ⟨.decode, s.inLen.toNat⟩, state := .busy })

/-- 44_control.md R202: with IN_LEN above IN_CAP, ENCODE and DECODE end at once in ERROR, in the same host step; no engine step
follows. -/
def Obligations.LengthBeyondCapacityIsAParamError : Prop :=
  ∀ s : State, s.state ≠ .busy → s.params.inCap < s.inLen.toNat →
    (exec .encode s = .next { s with outLen := 0, errInfo := s.inLen, err := .param, state := .error } ∧
      exec .decode s = .next { s with outLen := 0, errInfo := s.inLen, err := .param, state := .error }) ∧
    (s.pending = none →
      turn .engine { s with outLen := 0, errInfo := s.inLen, err := .param, state := .error } =
        .next { s with outLen := 0, errInfo := s.inLen, err := .param, state := .error })

/-- 70_reset_and_hazards.md R257: the model faults at the acceptance step where an input byte has not been written. -/
def Obligations.UnwrittenInputFaultsAtAcceptance : Prop :=
  ∀ s : State, s.state ≠ .busy → s.inLen.toNat ≤ s.params.inCap →
    (∃ i < s.inLen.toNat, Memory.read s.inMem i = none) →
      exec .encode s = .fault .unwrittenInput ∧ exec .decode s = .fault .unwrittenInput

/-- 44_control.md R204: ACK returns DONE and ERROR to IDLE and clears ERR and ERR_INFO, leaving OUT_LEN, OUT_MEM and the rest; it is a
no-op in IDLE; two act like one; `irq` is 0 after it. -/
def Obligations.AcknowledgeReturnsToIdle : Prop :=
  decodeCmd 0x00000003#32 = .command .ack ∧
  (∀ s : State, s.state = .done ∨ s.state = .error →
    exec .ack s = .next { s with state := .idle, err := .none, errInfo := 0 }) ∧
  (∀ s : State, s.state = .idle → exec .ack s = .next s) ∧
  ∀ s : State, s.state ≠ .busy → ∃ t : State, exec .ack s = .next t ∧ exec .ack t = .next t ∧ t.irq = false

/-! ### The engine's turn -/

/-- 41_encoder.md R130, R136 and 20_memory.md R70: the completion of ENCODE, with every byte of both buffers and every register. -/
def Obligations.EncodeCompletionWritesTheEncoding : Prop :=
  ∀ (s : State) (n : Nat) (B : List Byte), s.pending = some ⟨.encode, n⟩ → Memory.readBytes s.inMem 0 n = some B →
    ∃ m : Memory,
      turn .engine s = .next { s with
        outMem := m, outLen := BitVec.ofNat 32 (encodeBytes B).length, errInfo := 0, err := .none, state := .done,
        pending := none } ∧
      (∀ (j : Nat) (b : Byte), (encodeBytes B)[j]? = some b → Memory.read m j = some b) ∧
      ∀ j : Nat, (encodeBytes B).length ≤ j → Memory.read m j = Memory.read s.outMem j

/-- 43_decoder.md R180 with R186, R162 and 60_exceptions.md R225: the completion of DECODE: a result, or one of the two validator
errors, which leave OUT_MEM unchanged. -/
def Obligations.DecodeCompletionWritesTheDecodingOrTheError : Prop :=
  ∀ (s : State) (n : Nat) (T : List Byte), s.pending = some ⟨.decode, n⟩ → Memory.readBytes s.inMem 0 n = some T →
    (∀ L : Nat, validate T = .lengthError L →
      turn .engine s = .next { s with
        outLen := 0, errInfo := BitVec.ofNat 32 L, err := .length, state := .error, pending := none }) ∧
    (∀ c : Byte, validate T = .invalidCharacter c →
      turn .engine s = .next { s with
        outLen := 0, errInfo := c.setWidth 32, err := .invalidChar, state := .error, pending := none }) ∧
    ∀ S : List Byte, validate T = .ok S → ∃ (D : List Byte) (m : Memory), decodeSymbols S = some D ∧
      turn .engine s = .next { s with
        outMem := m, outLen := BitVec.ofNat 32 D.length, errInfo := 0, err := .none, state := .done, pending := none } ∧
      (∀ (j : Nat) (b : Byte), D[j]? = some b → Memory.read m j = some b) ∧
      ∀ j : Nat, D.length ≤ j → Memory.read m j = Memory.read s.outMem j

/-- ENCODE from its command write to its result: accepted, then completed at the engine's next turn (41_encoder.md R130, R135,
44_control.md R201). -/
def Obligations.EncodeRunsToItsResult : Prop :=
  ∀ (s : State) (B : List Byte), s.state ≠ .busy → s.inLen.toNat ≤ s.params.inCap →
    Memory.readBytes s.inMem 0 s.inLen.toNat = some B →
    ∃ (t u : State), exec .encode s = .next t ∧ turn .engine t = .next u ∧ u.state = .done ∧ u.err = .none ∧ u.errInfo = 0 ∧
      u.outLen = BitVec.ofNat 32 (encodeBytes B).length ∧ u.pending = none ∧ u.inMem = s.inMem ∧ u.inLen = s.inLen ∧
      u.ie = s.ie ∧ u.params = s.params ∧ u.response = s.response ∧ u.events = s.events ∧ u.irq = s.ie ∧
      Memory.readBytes u.outMem 0 (encodeBytes B).length = some (encodeBytes B) ∧
      ∀ j : Nat, (encodeBytes B).length ≤ j → Memory.read u.outMem j = Memory.read s.outMem j

/-- DECODE from its command write to its result (43_decoder.md R180, 44_control.md R201): DONE with the decoded bytes, or ERROR with
the validator's first error, nothing written to OUT_MEM. -/
def Obligations.DecodeRunsToItsResult : Prop :=
  ∀ (s : State) (T : List Byte), s.state ≠ .busy → s.inLen.toNat ≤ s.params.inCap →
    Memory.readBytes s.inMem 0 s.inLen.toNat = some T →
    ∃ (t u : State), exec .decode s = .next t ∧ turn .engine t = .next u ∧ u.pending = none ∧ u.inMem = s.inMem ∧
      u.inLen = s.inLen ∧ u.ie = s.ie ∧ u.params = s.params ∧ u.response = s.response ∧ u.events = s.events ∧ u.irq = s.ie ∧
      (∀ S : List Byte, validate T = .ok S → ∃ D : List Byte, decodeSymbols S = some D ∧ u.state = .done ∧ u.err = .none ∧
        u.errInfo = 0 ∧ u.outLen = BitVec.ofNat 32 D.length ∧ Memory.readBytes u.outMem 0 D.length = some D ∧
        ∀ j : Nat, D.length ≤ j → Memory.read u.outMem j = Memory.read s.outMem j) ∧
      (∀ L : Nat, validate T = .lengthError L → u.state = .error ∧ u.err = .length ∧ u.errInfo = BitVec.ofNat 32 L ∧
        u.outLen = 0 ∧ u.outMem = s.outMem) ∧
      (∀ c : Byte, validate T = .invalidCharacter c → u.state = .error ∧ u.err = .invalidChar ∧
        u.errInfo = c.setWidth 32 ∧ u.outLen = 0 ∧ u.outMem = s.outMem)

/-- 41_encoder.md R137(g), 43_decoder.md R190(e): the result depends only on the operation and `IN[0..n-1]`. -/
def Obligations.ResultDependsOnlyOnTheInput : Prop :=
  ∀ (s s' t : State) (p : Pending), s.pending = some p → s'.pending = some p →
    (∀ i < p.n, Memory.read s.inMem i = Memory.read s'.inMem i) → turn .engine s = .next t →
    ∃ t' : State, turn .engine s' = .next t' ∧ t'.state = t.state ∧ t'.err = t.err ∧ t'.errInfo = t.errInfo ∧
      t'.outLen = t.outLen ∧ ∀ j < t.outLen.toNat, Memory.read t'.outMem j = Memory.read t.outMem j

/-- 60_exceptions.md R240 and 44_control.md section 3: with no operation pending the engine's turn changes nothing, and a machine with
no turn left stays as it is (that such a machine takes the engine's turn is the model's choice, log entry 2). -/
def Obligations.QuiescentMachineStaysAsItIs : Prop :=
  ∀ s : State, s.pending = none → turn .engine s = .next s ∧ (s.events = [] → step s = .next s)

/-- 43_decoder.md section 3: no step produces UNMAPPABLE. -/
def Obligations.NoStepProducesUnmappable : Prop :=
  ∀ s t : State, step s = .next t → t.err = .unmappable → s.err = .unmappable

/-! ### The host port -/

/-- 20_memory.md R64, R65, R66: an access to an unmapped offset, a register access that is not an aligned 4-byte one, a buffer access
that is misaligned or not wholly inside the window: an error response, data 0 for a READ, and no effect on the engine. -/
def Obligations.MalformedAccessesGetABusError : Prop :=
  ∀ (s : State) (a : Access) (es : List Event) (o n : Nat), s.events = .host a :: es → o = a.off.toNat →
    n = widthBytes (accessWidth a.op) →
    (o < 0x20 → ¬(n = 4 ∧ o % 4 = 0)) →
    ¬(0x10000 ≤ o ∧ o + n ≤ 0x10000 + s.params.inCap ∧ o % n = 0) →
    ¬(0x20000 ≤ o ∧ o + n ≤ 0x20000 + s.params.outCap ∧ o % n = 0) →
      step s = .next { s with
        events := es
        response := some ⟨true,
          match a.op with
          | .read .w1 => some (.b1 0)
          | .read .w2 => some (.b2 0)
          | .read .w4 => some (.b4 0)
          | .write _ => none⟩ }

/-- 20_memory.md sections 1 and 2, 10_state.md section 2: where each well-formed access goes. -/
def Obligations.AddressMapPlacesRegistersAndWindows : Prop :=
  ∀ p : Params, p.wf = true →
    [0x00#18, 0x04#18, 0x08#18, 0x0C#18, 0x10#18, 0x14#18, 0x18#18, 0x1C#18].map (route p .w4) =
      [Reg.cmd, .status, .inLen, .outLen, .errInfo, .irqEn, .inCap, .outCap].map (fun r => some (Target.reg r)) ∧
    ∀ (w : Width) (off : Offset), off.toNat % widthBytes w = 0 →
      (0x10000 ≤ off.toNat → off.toNat + widthBytes w ≤ 0x10000 + p.inCap →
        route p w off = some (.inWindow (off.toNat - 0x10000))) ∧
      (0x20000 ≤ off.toNat → off.toNat + widthBytes w ≤ 0x20000 + p.outCap →
        route p w off = some (.outWindow (off.toNat - 0x20000)))

/-- 10_state.md section 2: what a READ of each register returns, with the codes of STATE and ERR; it changes nothing of the engine. -/
def Obligations.RegisterReadsReturnTheirValues : Prop :=
  [EngineState.idle, .busy, .done, .error].map EngineState.code = [0, 1, 2, 3] ∧
  [ErrCode.none, .length, .invalidChar, .unmappable, .param, .illegalCmd].map ErrCode.code = [0, 1, 2, 3, 4, 5] ∧
  ∀ (s : State) (off : Offset) (v : Word) (es : List Event), s.events = .host ⟨.read .w4, off⟩ :: es →
    (off, v) ∈
      [(0x00#18, 0#32), (0x04#18, BitVec.ofNat 32 (16 * s.err.code.toNat + s.state.code.toNat)), (0x08#18, s.inLen),
        (0x0C#18, s.outLen), (0x10#18, s.errInfo), (0x14#18, if s.ie then 1#32 else 0#32),
        (0x18#18, BitVec.ofNat 32 s.params.inCap), (0x1C#18, BitVec.ofNat 32 s.params.outCap)] →
      step s = .next { s with events := es, response := some ⟨false, some (.b4 v)⟩ }

/-- 10_state.md section 2: a WRITE of IN_LEN stores the full value outside BUSY and is ignored in BUSY; a WRITE of IRQ_EN stores bit 0
in every STATE. -/
def Obligations.LengthAndEnableWritesStore : Prop :=
  ∀ (s : State) (v : Word) (es : List Event),
    (s.events = .host ⟨.write (.b4 v), 0x08#18⟩ :: es →
      (s.state ≠ .busy → step s = .next { s with events := es, response := some ⟨false, none⟩, inLen := v }) ∧
      (s.state = .busy → step s = .next { s with events := es, response := some ⟨false, none⟩ })) ∧
    (s.events = .host ⟨.write (.b4 v), 0x14#18⟩ :: es →
      step s = .next { s with events := es, response := some ⟨false, none⟩, ie := v.getLsbD 0 })

/-- 20_memory.md R67: the WRITEs that succeed and change no state, and the READ of CMD. -/
def Obligations.IgnoredWritesSucceedAndChangeNothing : Prop :=
  (∀ (s : State) (v : Word) (off : Offset) (es : List Event), s.events = .host ⟨.write (.b4 v), off⟩ :: es →
    off ∈ [0x04#18, 0x0C#18, 0x10#18, 0x18#18, 0x1C#18] →
      step s = .next { s with events := es, response := some ⟨false, none⟩ }) ∧
  (∀ (s : State) (v : Word) (es : List Event), s.events = .host ⟨.write (.b4 v), 0x14#18⟩ :: es → v.getLsbD 0 = s.ie →
      step s = .next { s with events := es, response := some ⟨false, none⟩ }) ∧
  (∀ (s : State) (d : BusData) (off : Offset) (es : List Event), s.events = .host ⟨.write d, off⟩ :: es →
    s.params.wf = true → 0x20000 ≤ off.toNat → off.toNat + widthBytes (busWidth d) ≤ 0x20000 + s.params.outCap →
    off.toNat % widthBytes (busWidth d) = 0 →
      step s = .next { s with events := es, response := some ⟨false, none⟩ }) ∧
  (∀ (s : State) (d : BusData) (off : Offset) (es : List Event), s.events = .host ⟨.write d, off⟩ :: es →
    s.state = .busy →
    (d = .b4 (busWord d) ∧ (off = 0x00#18 ∨ off = 0x08#18)) ∨
      (0x10000 ≤ off.toNat ∧ off.toNat + widthBytes (busWidth d) ≤ 0x10000 + s.params.inCap ∧
        off.toNat % widthBytes (busWidth d) = 0) →
      step s = .next { s with events := es, response := some ⟨false, none⟩ }) ∧
  (∀ (s : State) (es : List Event), s.events = .host ⟨.read .w4, 0x00#18⟩ :: es →
    step s = .next { s with events := es, response := some ⟨false, some (.b4 0)⟩ })

/-- 20_memory.md sections 2 and 3 (byte order, IN window WRITE): the byte at `off + k` is bits `[8k+7:8k]` of the data; every other byte
of the buffer is unchanged; in BUSY nothing is stored. -/
def Obligations.InputWritesAreLittleEndian : Prop :=
  ∀ (s : State) (d : BusData) (off : Offset) (es : List Event) (i n : Nat), s.events = .host ⟨.write d, off⟩ :: es →
    n = widthBytes (busWidth d) → off.toNat = 0x10000 + i → off.toNat % n = 0 → i + n ≤ s.params.inCap →
    (s.state ≠ .busy → ∃ m : Memory,
      step s = .next { s with events := es, response := some ⟨false, none⟩, inMem := m } ∧
      (∀ k < n, Memory.read m (i + k) = some ((busWord d).extractLsb' (8 * k) 8)) ∧
      ∀ a : Nat, a < i ∨ i + n ≤ a → Memory.read m a = Memory.read s.inMem a) ∧
    (s.state = .busy → step s = .next { s with events := es, response := some ⟨false, none⟩ })

/-- 20_memory.md section 3: a READ of the IN window returns the bytes, little-endian, in every STATE; an unwritten byte among them
faults. -/
def Obligations.InputReadsReturnTheBytes : Prop :=
  ∀ (s : State) (w : Width) (off : Offset) (es : List Event) (i : Nat), s.events = .host ⟨.read w, off⟩ :: es →
    off.toNat = 0x10000 + i → off.toNat % widthBytes w = 0 → i + widthBytes w ≤ s.params.inCap →
    ((∀ k < widthBytes w, Memory.read s.inMem (i + k) ≠ none) → ∃ d : BusData,
      busWidth d = w ∧ step s = .next { s with events := es, response := some ⟨false, some d⟩ } ∧
      ∀ k < widthBytes w, Memory.read s.inMem (i + k) = some ((busWord d).extractLsb' (8 * k) 8)) ∧
    ((∃ k < widthBytes w, Memory.read s.inMem (i + k) = none) → step s = .fault .unwrittenRead)

/-- 20_memory.md R71: a READ of the OUT window returns 0 for every byte in BUSY and otherwise the bytes, little-endian; an unwritten
byte among them faults. -/
def Obligations.OutputReadsReturnTheBytesOutsideBusy : Prop :=
  ∀ (s : State) (w : Width) (off : Offset) (es : List Event) (j : Nat), s.events = .host ⟨.read w, off⟩ :: es →
    s.params.wf = true → off.toNat = 0x20000 + j → off.toNat % widthBytes w = 0 → j + widthBytes w ≤ s.params.outCap →
    (s.state = .busy → ∃ d : BusData,
      busWidth d = w ∧ busWord d = 0 ∧ step s = .next { s with events := es, response := some ⟨false, some d⟩ }) ∧
    (s.state ≠ .busy → (∀ k < widthBytes w, Memory.read s.outMem (j + k) ≠ none) → ∃ d : BusData,
      busWidth d = w ∧ step s = .next { s with events := es, response := some ⟨false, some d⟩ } ∧
      ∀ k < widthBytes w, Memory.read s.outMem (j + k) = some ((busWord d).extractLsb' (8 * k) 8)) ∧
    (s.state ≠ .busy → (∃ k < widthBytes w, Memory.read s.outMem (j + k) = none) → step s = .fault .unwrittenRead)

/-- 20_memory.md section 4: no READ has a side effect: only the model's own fields, the answer and the turn taken, change. -/
def Obligations.ReadsHaveNoSideEffect : Prop :=
  ∀ (s t : State) (w : Width) (off : Offset) (es : List Event), s.events = .host ⟨.read w, off⟩ :: es → step s = .next t →
    ∃ r : Response, t = { s with events := es, response := some r } ∧ r.data ≠ none

/-- 70_reset_and_hazards.md section 4: in BUSY a host access completes and changes nothing of the engine but IE, and IE only by a WRITE
of IRQ_EN, unless it is a READ of unwritten IN_MEM bytes. -/
def Obligations.BusyLocksTheOperation : Prop :=
  ∀ (s : State) (a : Access) (es : List Event), s.events = .host a :: es → s.state = .busy → s.params.wf = true →
    ((∃ (r : Response) (b : Bool), step s = .next { s with events := es, response := some r, ie := b } ∧
        (b ≠ s.ie → ∃ v : Word, a = ⟨.write (.b4 v), 0x14#18⟩ ∧ b = v.getLsbD 0)) ∨
      (step s = .fault .unwrittenRead ∧ ∃ w : Width, a.op = .read w ∧ 0x10000 ≤ a.off.toNat ∧
        a.off.toNat + widthBytes w ≤ 0x10000 + s.params.inCap))

/-- 20_memory.md section 1: an access to host address `BASE + off` is the access at offset `off`; an address outside the aperture does
not reach the engine (what the model does then is its own choice, log entry 16). -/
def Obligations.HostAddressesReachTheirOffset : Prop :=
  (∀ (s : State) (op : AccessOp) (off : Offset) (es : List Event),
    s.events = .bus ⟨op, s.params.base + off.toNat⟩ :: es → step s = step { s with events := .host ⟨op, off⟩ :: es }) ∧
  ∀ (s : State) (b : BusAccess) (es : List Event), s.events = .bus b :: es →
    b.addr < s.params.base ∨ s.params.base + 0x40000 ≤ b.addr → step s = .next { s with events := es }

/-! ### Reset and the interrupt -/

/-- 10_state.md R41: the values after reset. -/
def Obligations.ResetLeavesTheListedValues : Prop :=
  State.reset.state = .idle ∧ State.reset.err = .none ∧ State.reset.errInfo = 0 ∧ State.reset.inLen = 0 ∧
    State.reset.outLen = 0 ∧ State.reset.ie = false ∧ State.reset.pending = none ∧ State.reset.irq = false ∧
    (∀ i : Nat, Memory.read State.reset.inMem i = none) ∧ (∀ j : Nat, Memory.read State.reset.outMem j = none) ∧
    State.reset.statusWord = 0x00000000#32 ∧ State.reset.irqEnWord = 0x00000000#32

/-- 70_reset_and_hazards.md R250, R251: a reset in any state, whatever is pending. -/
def Obligations.ResetAppliesInEveryState : Prop :=
  ∀ (s : State) (es : List Event), s.events = .reset :: es →
    ∃ t : State, step s = .next t ∧ t.state = .idle ∧ t.err = .none ∧ t.errInfo = 0 ∧ t.inLen = 0 ∧ t.outLen = 0 ∧
      t.ie = false ∧ t.pending = none ∧ t.irq = false ∧ t.params = s.params ∧ t.events = es ∧
      (∀ i : Nat, Memory.read t.inMem i = none) ∧ (∀ j : Nat, Memory.read t.outMem j = none) ∧ turn .engine t = .next t

/-- 10_state.md R33 with 60_exceptions.md R230: the interrupt output, and the line it drives. -/
def Obligations.InterruptIsALevelOfTheState : Prop :=
  ∀ s : State, (s.irq = true ↔ s.ie = true ∧ (s.state = .done ∨ s.state = .error)) ∧
    ∀ line : Nat, s.irqOnLine line = true ↔ line = s.params.irqLine ∧ s.irq = true

/-- 60_exceptions.md R231: the only ways `irq` falls and the only ways it rises, and that each of them does so; an illegal word or a
ParamError leaves it at IE. -/
def Obligations.InterruptFallsAndRisesOnlyAsListed : Prop :=
  ∀ s t : State, step s = .next t →
    (s.irq = true → t.irq = false →
      s.resetNext = true ∨ ∃ a : Access, s.nextAccess = some a ∧
        ((commandWord a = some (encode .ack) ∧ t.state = .idle) ∨
          ((commandWord a = some (encode .encode) ∨ commandWord a = some (encode .decode)) ∧ t.state = .busy) ∨
          ∃ v : Word, a = ⟨.write (.b4 v), 0x14#18⟩ ∧ v.getLsbD 0 = false)) ∧
    (s.irq = false → t.irq = true →
      (s.engineNext = true ∧ s.pending ≠ none ∧ s.ie = true) ∨
      ∃ a : Access, s.nextAccess = some a ∧
        ((∃ v : Word, a = ⟨.write (.b4 v), 0x14#18⟩ ∧ v.getLsbD 0 = true ∧ (s.state = .done ∨ s.state = .error)) ∨
          (commandWord a ≠ none ∧ s.ie = true ∧ t.state = .error ∧ (t.err = .param ∨ t.err = .illegalCmd)))) ∧
    (s.resetNext = true → t.irq = false) ∧
    (s.engineNext = true → s.pending ≠ none → t.irq = s.ie) ∧
    (∀ v : Word, s.nextAccess = some ⟨.write (.b4 v), 0x14#18⟩ →
      (t.irq = true ↔ v.getLsbD 0 = true ∧ (s.state = .done ∨ s.state = .error))) ∧
    ∀ (a : Access) (w : Word), s.nextAccess = some a → commandWord a = some w → s.state ≠ .busy →
      (w = encode .ack → t.irq = false) ∧
      (w = encode .encode ∨ w = encode .decode → t.irq = (decide (s.params.inCap < s.inLen.toNat) && s.ie)) ∧
      (decodeCmd w = .illegal → t.irq = s.ie)

/-! ### Whole-machine rules -/

/-- 44_control.md R206: the transition table of STATE, for every event. -/
def Obligations.StateFollowsTheTransitionTable : Prop :=
  ∀ s t : State, step s = .next t →
    (s.resetNext = true → t.state = .idle) ∧
    (s.engineNext = true → s.pending ≠ none → t.state = .done ∨ t.state = .error) ∧
    (s.engineNext = true → s.pending = none → t.state = s.state) ∧
    (∀ (a : Access) (w : Word), s.nextAccess = some a → commandWord a = some w →
      (s.state = .busy → t.state = .busy) ∧
      (s.state ≠ .busy →
        (decodeCmd w = .command .ack → t.state = .idle) ∧
        (decodeCmd w = .illegal → t.state = .error) ∧
        (decodeCmd w = .command .encode ∨ decodeCmd w = .command .decode →
          t.state = if s.inLen.toNat ≤ s.params.inCap then .busy else .error))) ∧
    (∀ a : Access, s.nextAccess = some a → commandWord a = none → t.state = s.state)

/-- Which turns can change which piece of state (10_state.md sections 2 and 5, 20_memory.md section 3): the engine never writes
IN_MEM, only a completion in DONE writes OUT_MEM, only a WRITE of its register writes IN_LEN or IE, and only commands, completions and
resets write the result registers. The parameters never change. -/
def Obligations.EachPieceOfStateHasItsOwnWriters : Prop :=
  ∀ s t : State, step s = .next t →
    t.params = s.params ∧
    (t.inMem ≠ s.inMem → s.resetNext = true ∨ ∃ (d : BusData) (off : Offset), s.nextAccess = some ⟨.write d, off⟩ ∧
      0x10000 ≤ off.toNat ∧ off.toNat + widthBytes (busWidth d) ≤ 0x10000 + s.params.inCap ∧ s.state ≠ .busy) ∧
    (t.outMem ≠ s.outMem → s.resetNext = true ∨ (s.engineNext = true ∧ s.pending ≠ none ∧ t.state = .done)) ∧
    (t.inLen ≠ s.inLen → s.resetNext = true ∨ (s.nextAccess = some ⟨.write (.b4 t.inLen), 0x08#18⟩ ∧ s.state ≠ .busy)) ∧
    (t.ie ≠ s.ie → s.resetNext = true ∨ ∃ v : Word, s.nextAccess = some ⟨.write (.b4 v), 0x14#18⟩ ∧ t.ie = v.getLsbD 0) ∧
    (t.state ≠ s.state ∨ t.err ≠ s.err ∨ t.errInfo ≠ s.errInfo ∨ t.outLen ≠ s.outLen ∨ t.pending ≠ s.pending →
      s.resetNext = true ∨ (s.engineNext = true ∧ s.pending ≠ none) ∨
        ∃ (a : Access) (w : Word), s.nextAccess = some a ∧ commandWord a = some w ∧ s.state ≠ .busy)

/-- The invariant of R64's state holds after reset, whatever parameters the implementation chose (00_scope.md section 3). -/
def Obligations.ResetMeetsTheInvariant : Prop := State.reset.inv = true

/-- Every step keeps the invariant: the buffers stay canonical and inside their capacity, STATE is BUSY exactly when an operation is
pending with its operands latched and written, ERR is nonzero exactly in ERROR, ERR_INFO is what the table of 10_state.md section 2
says for the code, OUT_LEN bounds a written result, and UNMAPPABLE never stands. -/
def Obligations.EveryStepKeepsTheInvariant : Prop :=
  ∀ s t : State, s.inv = true → step s = .next t → t.inv = true

/-- From a state that meets the invariant a step is refused by nothing, and stops only on unwritten bytes, with the fault of the access
that needs them (93_implementation_defined.md section 1). -/
def Obligations.OnlyUnwrittenBytesStopTheMachine : Prop :=
  ∀ s : State, s.inv = true →
    (s.safe = true → ∃ t : State, step s = .next t) ∧
    (s.safe = false → ∃ a : Access, s.nextAccess = some a ∧
      ((commandWord a ≠ none ∧ step s = .fault .unwrittenInput) ∨ (commandWord a = none ∧ step s = .fault .unwrittenRead)))

/-- 70_reset_and_hazards.md section 5: in BUSY the completion step is enabled and ends the operation; and once the listed turns are
taken, no operation is left in BUSY one step later (log entry 2). -/
def Obligations.PendingOperationsComplete : Prop :=
  (∀ s : State, s.inv = true → s.state = .busy →
    ∃ t : State, turn .engine s = .next t ∧ (t.state = .done ∨ t.state = .error)) ∧
  ∀ s t : State, s.inv = true → Host.Core.run Sys2Proof.core (s.events.length + 1) s = .next t → t.state ≠ .busy

/-- 41_encoder.md section 4, the round trip of the machine: after an ENCODE that completes with OUT_LEN = m, `m <= IN_CAP`, a DECODE of
the same m bytes in IN_MEM completes in DONE with the original bytes. -/
def Obligations.MachineRoundTripGivesTheBytesBack : Prop :=
  ∀ (s t u v : State) (B : List Byte), s.params.wf = true → s.state ≠ .busy → s.inLen.toNat ≤ s.params.inCap →
    Memory.readBytes s.inMem 0 s.inLen.toNat = some B → exec .encode s = .next t → turn .engine t = .next u →
    v.state ≠ .busy → v.inLen = u.outLen → u.outLen.toNat ≤ v.params.inCap →
    (∀ j < u.outLen.toNat, Memory.read v.inMem j = Memory.read u.outMem j) →
    ∃ x y : State, exec .decode v = .next x ∧ turn .engine x = .next y ∧ y.state = .done ∧ y.err = .none ∧ y.errInfo = 0 ∧
      y.outLen.toNat = B.length ∧ Memory.readBytes y.outMem 0 B.length = some B

/-! ### The host-program notation -/

/-- 30_encoding.md R97: the pseudo-instructions expand to the listed bus accesses. Where a LOADB passes the end of the aperture R97 gives
it no meaning, and that the offset is then taken modulo 2^18 is the model's choice (log entry 17). -/
def Obligations.PseudoInstructionsExpandToTheListedAccesses : Prop :=
  (∀ i : Instr, (expand (.command i)).map busEncoding = [some ⟨.write (.b4 (encode i)), 0x00#18⟩]) ∧
  (∀ n : Word, (expand (.setlen n)).map busEncoding = [some ⟨.write (.b4 n), 0x08#18⟩]) ∧
  (expand .irqOn).map busEncoding = [some ⟨.write (.b4 1), 0x14#18⟩] ∧
  (expand .irqOff).map busEncoding = [some ⟨.write (.b4 0), 0x14#18⟩] ∧
  (∀ (i : Nat) (bs : List Byte), (expand (.loadb i bs)).length = bs.length ∧
    ∀ (k : Nat) (b : Byte), bs[k]? = some b →
      (expand (.loadb i bs))[k]? = some (.write (BitVec.ofNat 18 (0x10000 + i + k)) (.b1 b))) ∧
  ∀ s l : Nat, expand (.wait s l) = [.label l, .read .w4 0x04#18 s, .beq s 0x3 0x1 l]

/-! ### The properties of ENCODE -/

/-- 41_encoder.md R139: (a) OUT_LEN is a multiple of 4 at DONE; (b) the padding count of R133, PAD only at the end; (c) the round trip:
where the text fits in IN_MEM, copying it back and running DECODE gives the bytes back, without an error. -/
def Obligations.EncodeHasItsListedProperties : Prop :=
  ∀ (s : State) (B : List Byte), s.params.wf = true → s.state ≠ .busy → s.inLen.toNat ≤ s.params.inCap →
    Memory.readBytes s.inMem 0 s.inLen.toNat = some B →
    ∃ u : State, runOperation .encode s = .next u ∧ u.state = .done ∧ u.outLen.toNat = (encodeBytes B).length ∧
      Memory.readBytes u.outMem 0 u.outLen.toNat = some (encodeBytes B) ∧
      u.outLen.toNat % 4 = 0 ∧
      (∃ S : List Byte, S.length = ceilDiv (8 * B.length) 6 ∧ (∀ c ∈ S, c ≠ 0x3D#8) ∧
        encodeBytes B = S ++ List.replicate ((4 - ceilDiv (8 * B.length) 6 % 4) % 4) 0x3D#8) ∧
      (u.outLen.toNat ≤ u.params.inCap → ∃ y : State, roundTrip s = some y ∧ y.state = .done ∧ y.err = .none ∧ y.errInfo = 0 ∧
        y.outLen.toNat = B.length ∧ Memory.readBytes y.outMem 0 B.length = some B)
end

