-- ==== Sys2Proof/Laws/Codec.lean ====
section
/-! SUPPORT. Small laws of the bit streams, the validator and the decoder. -/

namespace Sys2Proof.Machine

/-! ### Bit streams -/

@[simp] theorem bits8_length (b : Byte) : (bits8 b).length = 8 := by simp [bits8]

@[simp] theorem bits6_length (v : Sextet) : (bits6 v).length = 6 := by simp [bits6]

/-- The stream of n bytes has 8n bits. -/
@[simp] theorem flatMap_bits8_length (B : List Byte) : (B.flatMap bits8).length = 8 * B.length := by
  induction B with
  | nil => rfl
  | cons b B ih => rw [List.flatMap_cons, List.length_append, ih, bits8_length, List.length_cons]; omega

/-- The stream of k sextets has 6k bits. -/
@[simp] theorem flatMap_bits6_length (vs : List Sextet) : (vs.flatMap bits6).length = 6 * vs.length := by
  induction vs with
  | nil => rfl
  | cons v vs ih => rw [List.flatMap_cons, List.length_append, ih, bits6_length, List.length_cons]; omega

/-- A stream of w bits stands for a value below `2^w`. -/
theorem bitsVal_lt (s : List Bool) : bitsVal s < 2 ^ s.length := by
  induction s with
  | nil => simp [bitsVal]
  | cons b s ih =>
    rw [bitsVal, List.length_cons, Nat.pow_succ]
    cases b <;> simp <;> omega

/-- A sub-stream that starts after `s` is a sub-stream of what follows `s`. -/
theorem slice_append_right (s s' : List Bool) (i w : Nat) : slice (s ++ s') (s.length + i) w = slice s' i w := by
  rw [slice, slice, List.drop_append, List.drop_eq_nil_of_le (by omega), List.nil_append, Nat.add_sub_cancel_left]

/-- A sub-stream that ends inside `s` is a sub-stream of `s`. -/
theorem slice_append_left (s s' : List Bool) (i w : Nat) (h : i + w ≤ s.length) : slice (s ++ s') i w = slice s i w := by
  rw [slice, slice, List.drop_append, List.take_append, List.length_drop]
  rw [Nat.sub_eq_zero_of_le (by omega : w ≤ s.length - i), List.take_zero, List.append_nil]

/-- The value-padded stream is exactly the sextets' bits. -/
theorem paddedStream_length (B : List Byte) : (paddedStream B).length = 6 * sextetCount B.length := by
  rw [paddedStream, List.length_append, List.length_replicate, flatMap_bits8_length, sextetCount, ceilDiv]
  omega

/-! ### The validator -/

/-- What an `Ok` verdict says (42_validator.md R157). -/
theorem validate_ok {T S : List Byte} (h : validate T = .ok S) :
    (stripNL T).length % 4 = 0 ∧ S = stripPAD (stripNL T) ∧ ∀ c ∈ S, isAlpha c = true := by
  unfold validate at h
  split at h
  · simp at h
  · next hl =>
    split at h
    · simp at h
    · next hf =>
      obtain rfl : stripPAD (stripNL T) = S := by simpa using h
      refine ⟨not_not.1 hl, rfl, ?_⟩
      simpa [firstInvalid] using hf

/-- What an `InvalidCharacter` verdict says: the byte passed newline and padding removal and is no alphabet code. -/
theorem validate_invalidCharacter {T : List Byte} {c : Byte} (h : validate T = .invalidCharacter c) :
    (stripNL T).length % 4 = 0 ∧ c ∈ T ∧ c ≠ NL ∧ c ≠ PAD ∧ isAlpha c = false := by
  unfold validate at h
  split at h
  · simp at h
  · next hl =>
    split at h
    · next c' hf =>
      obtain rfl : c' = c := by simpa using h
      have hm := List.mem_of_find?_eq_some hf
      have hp := List.find?_some hf
      simp only [stripPAD, stripNL, List.mem_filter, bne_iff_ne] at hm
      exact ⟨not_not.1 hl, hm.1.1, hm.1.2, hm.2, by simpa using hp⟩
    · simp at h

/-- What a `LengthError` verdict says (42_validator.md R152). -/
theorem validate_lengthError {T : List Byte} {L : Nat} (h : validate T = .lengthError L) :
    L = (stripNL T).length ∧ L % 4 ≠ 0 := by
  unfold validate at h
  split at h
  · next hl =>
    obtain rfl : (stripNL T).length = L := by simpa using h
    exact ⟨rfl, hl⟩
  · split at h <;> simp at h

theorem stripNL_length_le (T : List Byte) : (stripNL T).length ≤ T.length := List.length_filter_le _ _

theorem stripPAD_length_le (T : List Byte) : (stripPAD T).length ≤ T.length := List.length_filter_le _ _

/-! ### The decoder -/

/-- Symbols of the alphabet all have values, one each. -/
theorem symbolValues_of_isAlpha {S : List Byte} (h : ∀ c ∈ S, isAlpha c = true) :
    ∃ vs, symbolValues S = some vs ∧ vs.length = S.length := by
  induction S with
  | nil => exact ⟨[], rfl, rfl⟩
  | cons c S ih =>
    obtain ⟨vs, hvs, hl⟩ := ih fun x hx => h x (List.mem_cons_of_mem _ hx)
    obtain ⟨v, hv⟩ := Option.isSome_iff_exists.1 (h c List.mem_cons_self)
    exact ⟨v :: vs, by simp [symbolValues, hv, hvs], by simp [hl]⟩

@[simp] theorem regroup_length (vs : List Sextet) : (regroup vs).length = 6 * vs.length / 8 := by simp [regroup]

/-- "guaranteed to succeed since input was pre-validated" (43_decoder.md R181): a validated text always decodes, so UNMAPPABLE is
unreachable (R185). -/
theorem decodeSymbols_of_validate {T S : List Byte} (h : validate T = .ok S) :
    ∃ D, decodeSymbols S = some D ∧ D.length ≤ T.length := by
  obtain ⟨-, hS, hA⟩ := validate_ok h
  obtain ⟨vs, hvs, hl⟩ := symbolValues_of_isAlpha hA
  refine ⟨regroup vs, by simp [decodeSymbols, hvs], ?_⟩
  have h1 := stripNL_length_le T
  have h2 := stripPAD_length_le (stripNL T)
  rw [← hS] at h2
  rw [regroup_length]
  omega

end Sys2Proof.Machine
end

