-- ==== Sys2Proof/Laws/Memory.lean ====
section
/-! SUPPORT. The laws of the buffers: what a byte reads as after a write, and that every operation keeps the canonical form. -/

namespace Sys2Proof.Machine

@[simp] theorem Memory.read_nil (a : Nat) : Memory.read [] a = none := rfl

theorem Memory.read_cons (c : Host.Cell) (m : Memory) (a : Nat) :
    Memory.read (c :: m) a = if c.1 = a then some c.2 else Memory.read m a := rfl

/-- A byte reads as what was written to it. -/
@[simp] theorem Memory.read_write_same (m : Memory) (a : Nat) (b : Byte) :
    Memory.read (Memory.write m a b) a = some b := by
  induction m with
  | nil => simp [Memory.write, Memory.read]
  | cons c m ih =>
    unfold Memory.write
    split
    · simp [Memory.read]
    · split
      · simp [Memory.read]
      · next h => rw [Memory.read_cons, if_neg (Ne.symm h), ih]

/-- A write leaves every other byte alone. -/
theorem Memory.read_write_other (m : Memory) {a a' : Nat} (b : Byte) (h : a' ≠ a) :
    Memory.read (Memory.write m a b) a' = Memory.read m a' := by
  induction m with
  | nil => simp [Memory.write, Memory.read, h.symm]
  | cons c m ih =>
    unfold Memory.write
    split
    · rw [Memory.read_cons, if_neg (by simpa using h.symm)]
    · split
      · next hc => subst hc; rw [Memory.read_cons, Memory.read_cons, if_neg h.symm, if_neg h.symm]
      · rw [Memory.read_cons, Memory.read_cons, ih]

/-- After `MemWrite` at `i`, a byte below `i` reads as before. -/
theorem Memory.read_writeBytes_below (m : Memory) (i a : Nat) (L : List Byte) (h : a < i) :
    Memory.read (Memory.writeBytes m i L) a = Memory.read m a := by
  induction L generalizing m i with
  | nil => rfl
  | cons b L ih =>
    rw [Memory.writeBytes, ih _ _ (by omega), Memory.read_write_other _ _ (by omega)]

/-- After `MemWrite` at `i`, byte `i + k` reads as the list's byte k. -/
theorem Memory.read_writeBytes_inside (m : Memory) (i k : Nat) (L : List Byte) (b : Byte) (h : L[k]? = some b) :
    Memory.read (Memory.writeBytes m i L) (i + k) = some b := by
  induction L generalizing m i k with
  | nil => simp at h
  | cons b' L ih =>
    rw [Memory.writeBytes]
    cases k with
    | zero =>
      obtain rfl : b' = b := by simpa using h
      exact (Memory.read_writeBytes_below _ (i + 1) i L (by omega)).trans (Memory.read_write_same m i b')
    | succ k =>
      have := ih (Memory.write m i b') (i + 1) k (by simpa using h)
      rwa [Nat.add_right_comm, Nat.add_assoc] at this

/-- After `MemWrite` at `i`, a byte from `i + |L|` on reads as before. -/
theorem Memory.read_writeBytes_above (m : Memory) (i a : Nat) (L : List Byte) (h : i + L.length ≤ a) :
    Memory.read (Memory.writeBytes m i L) a = Memory.read m a := by
  induction L generalizing m i with
  | nil => rfl
  | cons b L ih =>
    rw [List.length_cons] at h
    rw [Memory.writeBytes, ih _ _ (by omega), Memory.read_write_other _ _ (by omega)]

/-! ### `MemRead` -/

/-- `MemRead` answers a list exactly when every byte of the range is written. -/
theorem Memory.readBytes_isSome_iff (m : Memory) (i n : Nat) :
    (Memory.readBytes m i n).isSome = true ↔ ∀ k < n, Memory.read m (i + k) ≠ none := by
  induction n generalizing i with
  | zero => simp [Memory.readBytes]
  | succ n ih =>
    rw [Memory.readBytes]
    constructor
    · intro h k hk
      split at h
      · next b bs hb hbs =>
        cases k with
        | zero => simp [hb]
        | succ k =>
          have := (ih (i + 1)).1 (by rw [hbs]; rfl) k (by omega)
          rwa [Nat.add_right_comm, Nat.add_assoc] at this
      · simp at h
    · intro h
      have h0 := h 0 (Nat.succ_pos n)
      obtain ⟨b, hb⟩ := Option.ne_none_iff_exists'.1 h0
      have hr : (Memory.readBytes m (i + 1) n).isSome = true := (ih (i + 1)).2 fun k hk => by
        have := h (k + 1) (by omega)
        rwa [Nat.add_right_comm, Nat.add_assoc]
      obtain ⟨bs, hbs⟩ := Option.isSome_iff_exists.1 hr
      rw [Nat.add_zero] at hb
      simp [hb, hbs]

/-- The length and the bytes of what `MemRead` answers. -/
theorem Memory.readBytes_eq_some_iff (m : Memory) (i n : Nat) (L : List Byte) :
    Memory.readBytes m i n = some L ↔ L.length = n ∧ ∀ k < n, Memory.read m (i + k) = L[k]? := by
  induction n generalizing i L with
  | zero => cases L <;> simp [Memory.readBytes]
  | succ n ih =>
    rw [Memory.readBytes]
    constructor
    · intro h
      split at h
      · next b bs hb hbs =>
        obtain rfl : b :: bs = L := by simpa using h
        obtain ⟨hl, hk⟩ := (ih (i + 1) bs).1 hbs
        refine ⟨by simp [hl], fun k hk' => ?_⟩
        cases k with
        | zero => simpa using hb
        | succ k =>
          have := hk k (by omega)
          rw [Nat.add_right_comm, Nat.add_assoc] at this
          simpa using this
      · simp at h
    · rintro ⟨hl, hk⟩
      cases L with
      | nil => simp at hl
      | cons b bs =>
        have h0 : Memory.read m i = some b := by simpa using hk 0 (Nat.succ_pos n)
        have hr : Memory.readBytes m (i + 1) n = some bs := (ih (i + 1) bs).2 ⟨by simpa using hl, fun k hk' => by
          have := hk (k + 1) (by omega)
          rw [Nat.add_right_comm, Nat.add_assoc]
          simpa using this⟩
        simp [h0, hr]

/-- `MemRead` sees only the bytes of its range. -/
theorem Memory.readBytes_congr {m m' : Memory} {i n : Nat} (h : ∀ k < n, Memory.read m (i + k) = Memory.read m' (i + k)) :
    Memory.readBytes m i n = Memory.readBytes m' i n := by
  induction n generalizing i with
  | zero => rfl
  | succ n ih =>
    have h0 : Memory.read m i = Memory.read m' i := by simpa using h 0 (Nat.succ_pos n)
    have hr := ih (i := i + 1) fun k hk => by
      have := h (k + 1) (by omega)
      rwa [Nat.add_right_comm, Nat.add_assoc]
    rw [Memory.readBytes, Memory.readBytes, h0, hr]

/-- `MemRead` after `MemWrite` of the same range gives the list back. -/
theorem Memory.readBytes_writeBytes (m : Memory) (i : Nat) (L : List Byte) :
    Memory.readBytes (Memory.writeBytes m i L) i L.length = some L := by
  rw [Memory.readBytes_eq_some_iff]
  refine ⟨rfl, fun k hk => ?_⟩
  have hb : L[k]? = some L[k] := List.getElem?_eq_getElem hk
  rw [hb]
  exact Memory.read_writeBytes_inside m i k L _ hb

/-- A longer written range contains a shorter one. -/
theorem Memory.written_mono {m : Memory} {n k : Nat} (h : Memory.written m n = true) (hk : k ≤ n) :
    Memory.written m k = true := by
  rw [Memory.written, Memory.readBytes_isSome_iff] at *
  exact fun j hj => h j (by omega)

/-- Writing bytes leaves every written range written. -/
theorem Memory.written_write {m : Memory} {n : Nat} (a : Nat) (b : Byte) (h : Memory.written m n = true) :
    Memory.written (Memory.write m a b) n = true := by
  rw [Memory.written, Memory.readBytes_isSome_iff] at *
  intro j hj
  by_cases ha : 0 + j = a
  · simp [ha]
  · rw [Memory.read_write_other _ _ ha]
    exact h j hj

theorem Memory.written_writeBytes {m : Memory} {n : Nat} (i : Nat) (L : List Byte) (h : Memory.written m n = true) :
    Memory.written (Memory.writeBytes m i L) n = true := by
  induction L generalizing m i with
  | nil => exact h
  | cons b L ih => exact ih (i + 1) (Memory.written_write i b h)

/-! ### The canonical form -/

/-- The form with its first index bounded below, which the induction needs. -/
theorem Memory.wf_cons_iff (c : Host.Cell) (m : Memory) :
    Memory.wf (c :: m) = true ↔ (∀ d, m.head? = some d → c.1 < d.1) ∧ Memory.wf m = true := by
  cases m with
  | nil => simp [Memory.wf]
  | cons d m => simp [Memory.wf]

/-- The first index after a write. -/
theorem Memory.head?_write (m : Memory) (a : Nat) (b : Byte) (d : Host.Cell)
    (h : (Memory.write m a b).head? = some d) : d.1 = a ∨ m.head? = some d := by
  cases m with
  | nil => left; simp [Memory.write] at h; simp [← h]
  | cons c m =>
    unfold Memory.write at h
    split at h
    · left; simp at h; simp [← h]
    · split at h
      · left; simp at h; simp [← h]
      · right; simpa using h

/-- A write keeps the canonical form. -/
theorem Memory.wf_write (m : Memory) (a : Nat) (b : Byte) (h : Memory.wf m = true) :
    Memory.wf (Memory.write m a b) = true := by
  induction m with
  | nil => rfl
  | cons c m ih =>
    obtain ⟨hc, hm⟩ := (Memory.wf_cons_iff c m).1 h
    unfold Memory.write
    split
    · next ha => exact (Memory.wf_cons_iff _ _).2 ⟨fun d hd => by simp at hd; simpa [← hd] using ha, h⟩
    · split
      · next ha => exact (Memory.wf_cons_iff _ _).2 ⟨fun d hd => ha ▸ hc d hd, hm⟩
      · next h1 h2 =>
        refine (Memory.wf_cons_iff _ _).2 ⟨fun d hd => ?_, ih hm⟩
        rcases Memory.head?_write m a b d hd with h3 | h3
        · omega
        · exact hc d h3

/-- `MemWrite` keeps the canonical form. -/
theorem Memory.wf_writeBytes (m : Memory) (i : Nat) (L : List Byte) (h : Memory.wf m = true) :
    Memory.wf (Memory.writeBytes m i L) = true := by
  induction L generalizing m i with
  | nil => exact h
  | cons b L ih => exact ih _ _ (Memory.wf_write m i b h)

/-- The cells of a buffer after a write are its old cells and the new one. -/
theorem Memory.mem_write (m : Memory) (a : Nat) (b : Byte) (c : Host.Cell) (h : c ∈ Memory.write m a b) :
    c = (a, b) ∨ c ∈ m := by
  induction m with
  | nil => simpa [Memory.write] using h
  | cons d m ih =>
    unfold Memory.write at h
    split at h
    · simpa using h
    · split at h
      · rcases List.mem_cons.1 h with h | h
        · exact .inl h
        · exact .inr (List.mem_cons_of_mem _ h)
      · rcases List.mem_cons.1 h with h | h
        · exact .inr (by simp [h])
        · exact (ih h).imp id (List.mem_cons_of_mem _)

theorem bufferOk_iff (cap : Nat) (m : Memory) :
    bufferOk cap m = true ↔ Memory.wf m = true ∧ ∀ c ∈ m, c.1 < cap := by
  simp [bufferOk]

/-- A write inside the capacity keeps a buffer in order. -/
theorem bufferOk_write {cap : Nat} {m : Memory} {a : Nat} (b : Byte) (h : bufferOk cap m = true) (ha : a < cap) :
    bufferOk cap (Memory.write m a b) = true := by
  rw [bufferOk_iff] at *
  refine ⟨Memory.wf_write m a b h.1, fun c hc => ?_⟩
  rcases Memory.mem_write m a b c hc with rfl | hc
  · exact ha
  · exact h.2 c hc

/-- `MemWrite` inside the capacity keeps a buffer in order. -/
theorem bufferOk_writeBytes {cap : Nat} {m : Memory} (i : Nat) (L : List Byte) (h : bufferOk cap m = true)
    (hi : i + L.length ≤ cap) : bufferOk cap (Memory.writeBytes m i L) = true := by
  induction L generalizing m i with
  | nil => exact h
  | cons b L ih =>
    rw [List.length_cons] at hi
    exact ih (i + 1) (bufferOk_write b h (by omega)) (by omega)

@[simp] theorem bufferOk_nil (cap : Nat) : bufferOk cap [] = true := rfl

end Sys2Proof.Machine
end

