-- ==== Sys2Proof/Laws/State.lean ====
section
/-! SUPPORT. One lemma per field per update of State, true by rfl, so that no later proof unfolds a record update. -/

namespace Sys2Proof.Machine

@[simp] theorem State.respond_state (r : Response) (s : State) : (State.respond r s).state = s.state := rfl
@[simp] theorem State.respond_err (r : Response) (s : State) : (State.respond r s).err = s.err := rfl
@[simp] theorem State.respond_errInfo (r : Response) (s : State) : (State.respond r s).errInfo = s.errInfo := rfl
@[simp] theorem State.respond_inLen (r : Response) (s : State) : (State.respond r s).inLen = s.inLen := rfl
@[simp] theorem State.respond_outLen (r : Response) (s : State) : (State.respond r s).outLen = s.outLen := rfl
@[simp] theorem State.respond_ie (r : Response) (s : State) : (State.respond r s).ie = s.ie := rfl
@[simp] theorem State.respond_inMem (r : Response) (s : State) : (State.respond r s).inMem = s.inMem := rfl
@[simp] theorem State.respond_outMem (r : Response) (s : State) : (State.respond r s).outMem = s.outMem := rfl
@[simp] theorem State.respond_pending (r : Response) (s : State) : (State.respond r s).pending = s.pending := rfl
@[simp] theorem State.respond_params (r : Response) (s : State) : (State.respond r s).params = s.params := rfl
@[simp] theorem State.respond_response (r : Response) (s : State) : (State.respond r s).response = some r := rfl
@[simp] theorem State.respond_events (r : Response) (s : State) : (State.respond r s).events = s.events := rfl

@[simp] theorem State.withEvents_state (es : List Event) (s : State) : (State.withEvents es s).state = s.state := rfl
@[simp] theorem State.withEvents_err (es : List Event) (s : State) : (State.withEvents es s).err = s.err := rfl
@[simp] theorem State.withEvents_errInfo (es : List Event) (s : State) : (State.withEvents es s).errInfo = s.errInfo := rfl
@[simp] theorem State.withEvents_inLen (es : List Event) (s : State) : (State.withEvents es s).inLen = s.inLen := rfl
@[simp] theorem State.withEvents_outLen (es : List Event) (s : State) : (State.withEvents es s).outLen = s.outLen := rfl
@[simp] theorem State.withEvents_ie (es : List Event) (s : State) : (State.withEvents es s).ie = s.ie := rfl
@[simp] theorem State.withEvents_inMem (es : List Event) (s : State) : (State.withEvents es s).inMem = s.inMem := rfl
@[simp] theorem State.withEvents_outMem (es : List Event) (s : State) : (State.withEvents es s).outMem = s.outMem := rfl
@[simp] theorem State.withEvents_pending (es : List Event) (s : State) : (State.withEvents es s).pending = s.pending := rfl
@[simp] theorem State.withEvents_params (es : List Event) (s : State) : (State.withEvents es s).params = s.params := rfl
@[simp] theorem State.withEvents_response (es : List Event) (s : State) : (State.withEvents es s).response = s.response := rfl
@[simp] theorem State.withEvents_events (es : List Event) (s : State) : (State.withEvents es s).events = es := rfl

@[simp] theorem State.setInLen_state (w : Word) (s : State) : (State.setInLen w s).state = s.state := rfl
@[simp] theorem State.setInLen_err (w : Word) (s : State) : (State.setInLen w s).err = s.err := rfl
@[simp] theorem State.setInLen_errInfo (w : Word) (s : State) : (State.setInLen w s).errInfo = s.errInfo := rfl
@[simp] theorem State.setInLen_inLen (w : Word) (s : State) : (State.setInLen w s).inLen = w := rfl
@[simp] theorem State.setInLen_outLen (w : Word) (s : State) : (State.setInLen w s).outLen = s.outLen := rfl
@[simp] theorem State.setInLen_ie (w : Word) (s : State) : (State.setInLen w s).ie = s.ie := rfl
@[simp] theorem State.setInLen_inMem (w : Word) (s : State) : (State.setInLen w s).inMem = s.inMem := rfl
@[simp] theorem State.setInLen_outMem (w : Word) (s : State) : (State.setInLen w s).outMem = s.outMem := rfl
@[simp] theorem State.setInLen_pending (w : Word) (s : State) : (State.setInLen w s).pending = s.pending := rfl
@[simp] theorem State.setInLen_params (w : Word) (s : State) : (State.setInLen w s).params = s.params := rfl
@[simp] theorem State.setInLen_response (w : Word) (s : State) : (State.setInLen w s).response = s.response := rfl
@[simp] theorem State.setInLen_events (w : Word) (s : State) : (State.setInLen w s).events = s.events := rfl

@[simp] theorem State.setIe_state (b : Bool) (s : State) : (State.setIe b s).state = s.state := rfl
@[simp] theorem State.setIe_err (b : Bool) (s : State) : (State.setIe b s).err = s.err := rfl
@[simp] theorem State.setIe_errInfo (b : Bool) (s : State) : (State.setIe b s).errInfo = s.errInfo := rfl
@[simp] theorem State.setIe_inLen (b : Bool) (s : State) : (State.setIe b s).inLen = s.inLen := rfl
@[simp] theorem State.setIe_outLen (b : Bool) (s : State) : (State.setIe b s).outLen = s.outLen := rfl
@[simp] theorem State.setIe_ie (b : Bool) (s : State) : (State.setIe b s).ie = b := rfl
@[simp] theorem State.setIe_inMem (b : Bool) (s : State) : (State.setIe b s).inMem = s.inMem := rfl
@[simp] theorem State.setIe_outMem (b : Bool) (s : State) : (State.setIe b s).outMem = s.outMem := rfl
@[simp] theorem State.setIe_pending (b : Bool) (s : State) : (State.setIe b s).pending = s.pending := rfl
@[simp] theorem State.setIe_params (b : Bool) (s : State) : (State.setIe b s).params = s.params := rfl
@[simp] theorem State.setIe_response (b : Bool) (s : State) : (State.setIe b s).response = s.response := rfl
@[simp] theorem State.setIe_events (b : Bool) (s : State) : (State.setIe b s).events = s.events := rfl

@[simp] theorem State.storeIn_state (i : Nat) (bs : List Byte) (s : State) : (State.storeIn i bs s).state = s.state := rfl
@[simp] theorem State.storeIn_err (i : Nat) (bs : List Byte) (s : State) : (State.storeIn i bs s).err = s.err := rfl
@[simp] theorem State.storeIn_errInfo (i : Nat) (bs : List Byte) (s : State) : (State.storeIn i bs s).errInfo = s.errInfo := rfl
@[simp] theorem State.storeIn_inLen (i : Nat) (bs : List Byte) (s : State) : (State.storeIn i bs s).inLen = s.inLen := rfl
@[simp] theorem State.storeIn_outLen (i : Nat) (bs : List Byte) (s : State) : (State.storeIn i bs s).outLen = s.outLen := rfl
@[simp] theorem State.storeIn_ie (i : Nat) (bs : List Byte) (s : State) : (State.storeIn i bs s).ie = s.ie := rfl
@[simp] theorem State.storeIn_inMem (i : Nat) (bs : List Byte) (s : State) : (State.storeIn i bs s).inMem = Memory.writeBytes s.inMem i bs := rfl
@[simp] theorem State.storeIn_outMem (i : Nat) (bs : List Byte) (s : State) : (State.storeIn i bs s).outMem = s.outMem := rfl
@[simp] theorem State.storeIn_pending (i : Nat) (bs : List Byte) (s : State) : (State.storeIn i bs s).pending = s.pending := rfl
@[simp] theorem State.storeIn_params (i : Nat) (bs : List Byte) (s : State) : (State.storeIn i bs s).params = s.params := rfl
@[simp] theorem State.storeIn_response (i : Nat) (bs : List Byte) (s : State) : (State.storeIn i bs s).response = s.response := rfl
@[simp] theorem State.storeIn_events (i : Nat) (bs : List Byte) (s : State) : (State.storeIn i bs s).events = s.events := rfl

@[simp] theorem State.storeOut_state (L : List Byte) (s : State) : (State.storeOut L s).state = s.state := rfl
@[simp] theorem State.storeOut_err (L : List Byte) (s : State) : (State.storeOut L s).err = s.err := rfl
@[simp] theorem State.storeOut_errInfo (L : List Byte) (s : State) : (State.storeOut L s).errInfo = s.errInfo := rfl
@[simp] theorem State.storeOut_inLen (L : List Byte) (s : State) : (State.storeOut L s).inLen = s.inLen := rfl
@[simp] theorem State.storeOut_outLen (L : List Byte) (s : State) : (State.storeOut L s).outLen = s.outLen := rfl
@[simp] theorem State.storeOut_ie (L : List Byte) (s : State) : (State.storeOut L s).ie = s.ie := rfl
@[simp] theorem State.storeOut_inMem (L : List Byte) (s : State) : (State.storeOut L s).inMem = s.inMem := rfl
@[simp] theorem State.storeOut_outMem (L : List Byte) (s : State) : (State.storeOut L s).outMem = Memory.writeBytes s.outMem 0 L := rfl
@[simp] theorem State.storeOut_pending (L : List Byte) (s : State) : (State.storeOut L s).pending = s.pending := rfl
@[simp] theorem State.storeOut_params (L : List Byte) (s : State) : (State.storeOut L s).params = s.params := rfl
@[simp] theorem State.storeOut_response (L : List Byte) (s : State) : (State.storeOut L s).response = s.response := rfl
@[simp] theorem State.storeOut_events (L : List Byte) (s : State) : (State.storeOut L s).events = s.events := rfl

@[simp] theorem State.accept_state (m : Mode) (n : Nat) (s : State) : (State.accept m n s).state = .busy := rfl
@[simp] theorem State.accept_err (m : Mode) (n : Nat) (s : State) : (State.accept m n s).err = .none := rfl
@[simp] theorem State.accept_errInfo (m : Mode) (n : Nat) (s : State) : (State.accept m n s).errInfo = 0 := rfl
@[simp] theorem State.accept_inLen (m : Mode) (n : Nat) (s : State) : (State.accept m n s).inLen = s.inLen := rfl
@[simp] theorem State.accept_outLen (m : Mode) (n : Nat) (s : State) : (State.accept m n s).outLen = 0 := rfl
@[simp] theorem State.accept_ie (m : Mode) (n : Nat) (s : State) : (State.accept m n s).ie = s.ie := rfl
@[simp] theorem State.accept_inMem (m : Mode) (n : Nat) (s : State) : (State.accept m n s).inMem = s.inMem := rfl
@[simp] theorem State.accept_outMem (m : Mode) (n : Nat) (s : State) : (State.accept m n s).outMem = s.outMem := rfl
@[simp] theorem State.accept_pending (m : Mode) (n : Nat) (s : State) : (State.accept m n s).pending = some ⟨m, n⟩ := rfl
@[simp] theorem State.accept_params (m : Mode) (n : Nat) (s : State) : (State.accept m n s).params = s.params := rfl
@[simp] theorem State.accept_response (m : Mode) (n : Nat) (s : State) : (State.accept m n s).response = s.response := rfl
@[simp] theorem State.accept_events (m : Mode) (n : Nat) (s : State) : (State.accept m n s).events = s.events := rfl

@[simp] theorem State.complete_state (n : Nat) (s : State) : (State.complete n s).state = .done := rfl
@[simp] theorem State.complete_err (n : Nat) (s : State) : (State.complete n s).err = .none := rfl
@[simp] theorem State.complete_errInfo (n : Nat) (s : State) : (State.complete n s).errInfo = 0 := rfl
@[simp] theorem State.complete_inLen (n : Nat) (s : State) : (State.complete n s).inLen = s.inLen := rfl
@[simp] theorem State.complete_outLen (n : Nat) (s : State) : (State.complete n s).outLen = BitVec.ofNat 32 n := rfl
@[simp] theorem State.complete_ie (n : Nat) (s : State) : (State.complete n s).ie = s.ie := rfl
@[simp] theorem State.complete_inMem (n : Nat) (s : State) : (State.complete n s).inMem = s.inMem := rfl
@[simp] theorem State.complete_outMem (n : Nat) (s : State) : (State.complete n s).outMem = s.outMem := rfl
@[simp] theorem State.complete_pending (n : Nat) (s : State) : (State.complete n s).pending = none := rfl
@[simp] theorem State.complete_params (n : Nat) (s : State) : (State.complete n s).params = s.params := rfl
@[simp] theorem State.complete_response (n : Nat) (s : State) : (State.complete n s).response = s.response := rfl
@[simp] theorem State.complete_events (n : Nat) (s : State) : (State.complete n s).events = s.events := rfl

@[simp] theorem State.raiseError_state (e : ErrCode) (w : Word) (s : State) : (State.raiseError e w s).state = .error := rfl
@[simp] theorem State.raiseError_err (e : ErrCode) (w : Word) (s : State) : (State.raiseError e w s).err = e := rfl
@[simp] theorem State.raiseError_errInfo (e : ErrCode) (w : Word) (s : State) : (State.raiseError e w s).errInfo = w := rfl
@[simp] theorem State.raiseError_inLen (e : ErrCode) (w : Word) (s : State) : (State.raiseError e w s).inLen = s.inLen := rfl
@[simp] theorem State.raiseError_outLen (e : ErrCode) (w : Word) (s : State) : (State.raiseError e w s).outLen = 0 := rfl
@[simp] theorem State.raiseError_ie (e : ErrCode) (w : Word) (s : State) : (State.raiseError e w s).ie = s.ie := rfl
@[simp] theorem State.raiseError_inMem (e : ErrCode) (w : Word) (s : State) : (State.raiseError e w s).inMem = s.inMem := rfl
@[simp] theorem State.raiseError_outMem (e : ErrCode) (w : Word) (s : State) : (State.raiseError e w s).outMem = s.outMem := rfl
@[simp] theorem State.raiseError_pending (e : ErrCode) (w : Word) (s : State) : (State.raiseError e w s).pending = s.pending := rfl
@[simp] theorem State.raiseError_params (e : ErrCode) (w : Word) (s : State) : (State.raiseError e w s).params = s.params := rfl
@[simp] theorem State.raiseError_response (e : ErrCode) (w : Word) (s : State) : (State.raiseError e w s).response = s.response := rfl
@[simp] theorem State.raiseError_events (e : ErrCode) (w : Word) (s : State) : (State.raiseError e w s).events = s.events := rfl

@[simp] theorem State.raiseInEngine_state (e : ErrCode) (w : Word) (s : State) : (State.raiseInEngine e w s).state = .error := rfl
@[simp] theorem State.raiseInEngine_err (e : ErrCode) (w : Word) (s : State) : (State.raiseInEngine e w s).err = e := rfl
@[simp] theorem State.raiseInEngine_errInfo (e : ErrCode) (w : Word) (s : State) : (State.raiseInEngine e w s).errInfo = w := rfl
@[simp] theorem State.raiseInEngine_inLen (e : ErrCode) (w : Word) (s : State) : (State.raiseInEngine e w s).inLen = s.inLen := rfl
@[simp] theorem State.raiseInEngine_outLen (e : ErrCode) (w : Word) (s : State) : (State.raiseInEngine e w s).outLen = 0 := rfl
@[simp] theorem State.raiseInEngine_ie (e : ErrCode) (w : Word) (s : State) : (State.raiseInEngine e w s).ie = s.ie := rfl
@[simp] theorem State.raiseInEngine_inMem (e : ErrCode) (w : Word) (s : State) : (State.raiseInEngine e w s).inMem = s.inMem := rfl
@[simp] theorem State.raiseInEngine_outMem (e : ErrCode) (w : Word) (s : State) : (State.raiseInEngine e w s).outMem = s.outMem := rfl
@[simp] theorem State.raiseInEngine_pending (e : ErrCode) (w : Word) (s : State) : (State.raiseInEngine e w s).pending = none := rfl
@[simp] theorem State.raiseInEngine_params (e : ErrCode) (w : Word) (s : State) : (State.raiseInEngine e w s).params = s.params := rfl
@[simp] theorem State.raiseInEngine_response (e : ErrCode) (w : Word) (s : State) : (State.raiseInEngine e w s).response = s.response := rfl
@[simp] theorem State.raiseInEngine_events (e : ErrCode) (w : Word) (s : State) : (State.raiseInEngine e w s).events = s.events := rfl

@[simp] theorem State.acknowledge_state (s : State) : (State.acknowledge s).state = .idle := rfl
@[simp] theorem State.acknowledge_err (s : State) : (State.acknowledge s).err = .none := rfl
@[simp] theorem State.acknowledge_errInfo (s : State) : (State.acknowledge s).errInfo = 0 := rfl
@[simp] theorem State.acknowledge_inLen (s : State) : (State.acknowledge s).inLen = s.inLen := rfl
@[simp] theorem State.acknowledge_outLen (s : State) : (State.acknowledge s).outLen = s.outLen := rfl
@[simp] theorem State.acknowledge_ie (s : State) : (State.acknowledge s).ie = s.ie := rfl
@[simp] theorem State.acknowledge_inMem (s : State) : (State.acknowledge s).inMem = s.inMem := rfl
@[simp] theorem State.acknowledge_outMem (s : State) : (State.acknowledge s).outMem = s.outMem := rfl
@[simp] theorem State.acknowledge_pending (s : State) : (State.acknowledge s).pending = s.pending := rfl
@[simp] theorem State.acknowledge_params (s : State) : (State.acknowledge s).params = s.params := rfl
@[simp] theorem State.acknowledge_response (s : State) : (State.acknowledge s).response = s.response := rfl
@[simp] theorem State.acknowledge_events (s : State) : (State.acknowledge s).events = s.events := rfl

@[simp] theorem State.applyReset_state (s : State) : (State.applyReset s).state = .idle := rfl
@[simp] theorem State.applyReset_err (s : State) : (State.applyReset s).err = .none := rfl
@[simp] theorem State.applyReset_errInfo (s : State) : (State.applyReset s).errInfo = 0 := rfl
@[simp] theorem State.applyReset_inLen (s : State) : (State.applyReset s).inLen = 0 := rfl
@[simp] theorem State.applyReset_outLen (s : State) : (State.applyReset s).outLen = 0 := rfl
@[simp] theorem State.applyReset_ie (s : State) : (State.applyReset s).ie = false := rfl
@[simp] theorem State.applyReset_inMem (s : State) : (State.applyReset s).inMem = [] := rfl
@[simp] theorem State.applyReset_outMem (s : State) : (State.applyReset s).outMem = [] := rfl
@[simp] theorem State.applyReset_pending (s : State) : (State.applyReset s).pending = none := rfl
@[simp] theorem State.applyReset_params (s : State) : (State.applyReset s).params = s.params := rfl
@[simp] theorem State.applyReset_response (s : State) : (State.applyReset s).response = none := rfl
@[simp] theorem State.applyReset_events (s : State) : (State.applyReset s).events = s.events := rfl

@[simp] theorem State.resetWith_state (p : Params) (es : List Event) : (State.resetWith p es).state = .idle := rfl
@[simp] theorem State.resetWith_err (p : Params) (es : List Event) : (State.resetWith p es).err = .none := rfl
@[simp] theorem State.resetWith_errInfo (p : Params) (es : List Event) : (State.resetWith p es).errInfo = 0 := rfl
@[simp] theorem State.resetWith_inLen (p : Params) (es : List Event) : (State.resetWith p es).inLen = 0 := rfl
@[simp] theorem State.resetWith_outLen (p : Params) (es : List Event) : (State.resetWith p es).outLen = 0 := rfl
@[simp] theorem State.resetWith_ie (p : Params) (es : List Event) : (State.resetWith p es).ie = false := rfl
@[simp] theorem State.resetWith_inMem (p : Params) (es : List Event) : (State.resetWith p es).inMem = [] := rfl
@[simp] theorem State.resetWith_outMem (p : Params) (es : List Event) : (State.resetWith p es).outMem = [] := rfl
@[simp] theorem State.resetWith_pending (p : Params) (es : List Event) : (State.resetWith p es).pending = none := rfl
@[simp] theorem State.resetWith_params (p : Params) (es : List Event) : (State.resetWith p es).params = p := rfl
@[simp] theorem State.resetWith_response (p : Params) (es : List Event) : (State.resetWith p es).response = none := rfl
@[simp] theorem State.resetWith_events (p : Params) (es : List Event) : (State.resetWith p es).events = es := rfl

/-- Taking the turns a state already has changes nothing. -/
@[simp] theorem State.withEvents_self (s : State) : State.withEvents s.events s = s := rfl

@[simp] theorem State.withEvents_withEvents (es es' : List Event) (s : State) :
    State.withEvents es (State.withEvents es' s) = State.withEvents es s := rfl

/-- The answer of the port and the turns left do not enter the interrupt output. -/
@[simp] theorem State.respond_irq (r : Response) (s : State) : (State.respond r s).irq = s.irq := rfl

@[simp] theorem State.withEvents_irq (es : List Event) (s : State) : (State.withEvents es s).irq = s.irq := rfl

end Sys2Proof.Machine
end

