-- ==== Sys2Proof/Laws/Step.lean ====
section
/-! SUPPORT. Once for each operation and for the step: everything it can do when it answers a next state. -/

namespace Sys2Proof.Machine

/-! ### Commands -/

/-- `startOp` answers ParamError or acceptance (44_control.md R201, R202). -/
theorem startOp_next {m : Mode} {s t : State} (h : startOp m s = .next t) :
    (s.params.inCap < s.inLen.toNat ∧ t = State.raiseError .param s.inLen s) ∨
    (s.inLen.toNat ≤ s.params.inCap ∧ Memory.written s.inMem s.inLen.toNat = true ∧ t = State.accept m s.inLen.toNat s) := by
  unfold startOp at h
  split at h
  · next hc => exact .inl ⟨hc, by simpa using h.symm⟩
  · next hc =>
    split at h
    · next hw => exact .inr ⟨Nat.le_of_not_lt hc, hw, by simpa using h.symm⟩
    · simp at h

theorem startOp_paramError {m : Mode} {s : State} (h : s.params.inCap < s.inLen.toNat) :
    startOp m s = .next (State.raiseError .param s.inLen s) := if_pos h

theorem startOp_accept {m : Mode} {s : State} (h : s.inLen.toNat ≤ s.params.inCap)
    (hw : Memory.written s.inMem s.inLen.toNat = true) : startOp m s = .next (State.accept m s.inLen.toNat s) := by
  rw [startOp, if_neg (Nat.not_lt.2 h), if_pos hw]

theorem startOp_fault {m : Mode} {s : State} (h : s.inLen.toNat ≤ s.params.inCap)
    (hw : Memory.written s.inMem s.inLen.toNat = false) : startOp m s = .fault .unwrittenInput := by
  rw [startOp, if_neg (Nat.not_lt.2 h), if_neg (by simp [hw])]

/-- Every command is dropped while BUSY (44_control.md R200). -/
theorem exec_busy (i : Instr) {s : State} (h : s.state = .busy) : exec i s = .next s := by
  cases i <;> simp [exec, execEncode, execDecode, execAck, h]

theorem exec_encode {s : State} (h : s.state ≠ .busy) : exec .encode s = startOp .encode s := if_neg h

theorem exec_decode {s : State} (h : s.state ≠ .busy) : exec .decode s = startOp .decode s := if_neg h

/-- The mode that a command starts, if it starts one. -/
def startMode : Instr → Option Mode
  | .encode => some .encode
  | .decode => some .decode
  | .ack => none

/-- Everything a command can do when it answers a next state. -/
theorem exec_next {i : Instr} {s t : State} (h : exec i s = .next t) :
    (s.state = .busy ∧ t = s) ∨
    (∃ m, startMode i = some m ∧ s.state ≠ .busy ∧ s.params.inCap < s.inLen.toNat ∧
      t = State.raiseError .param s.inLen s) ∨
    (∃ m, startMode i = some m ∧ s.state ≠ .busy ∧ s.inLen.toNat ≤ s.params.inCap ∧
      Memory.written s.inMem s.inLen.toNat = true ∧ t = State.accept m s.inLen.toNat s) ∨
    (i = .ack ∧ (s.state = .done ∨ s.state = .error) ∧ t = State.acknowledge s) ∨
    (i = .ack ∧ s.state = .idle ∧ t = s) := by
  by_cases hb : s.state = .busy
  · rw [exec_busy i hb] at h
    exact .inl ⟨hb, by simpa using h.symm⟩
  · cases i with
    | encode =>
      rw [exec_encode hb] at h
      rcases startOp_next h with ⟨h1, h2⟩ | ⟨h1, h2, h3⟩
      · exact .inr (.inl ⟨_, rfl, hb, h1, h2⟩)
      · exact .inr (.inr (.inl ⟨_, rfl, hb, h1, h2, h3⟩))
    | decode =>
      rw [exec_decode hb] at h
      rcases startOp_next h with ⟨h1, h2⟩ | ⟨h1, h2, h3⟩
      · exact .inr (.inl ⟨_, rfl, hb, h1, h2⟩)
      · exact .inr (.inr (.inl ⟨_, rfl, hb, h1, h2, h3⟩))
    | ack =>
      rw [exec, execAck] at h
      split at h
      · next hs => exact .inr (.inr (.inr (.inl ⟨rfl, hs, by simpa using h.symm⟩)))
      · next hs =>
        refine .inr (.inr (.inr (.inr ⟨rfl, ?_, by simpa using h.symm⟩)))
        cases hst : s.state <;> simp_all

/-! ### The engine's turn -/

/-- The three ways a DECODE ends; UNMAPPABLE is none of them (43_decoder.md R180, R185). -/
theorem decodeText_cases (T : List Byte) (s : State) :
    (∃ S D, validate T = .ok S ∧ decodeSymbols S = some D ∧ D.length ≤ T.length ∧
      decodeText T s = State.complete D.length (State.storeOut D s)) ∨
    (∃ L, validate T = .lengthError L ∧ decodeText T s = State.raiseInEngine .length (BitVec.ofNat 32 L) s) ∨
    (∃ c, validate T = .invalidCharacter c ∧ decodeText T s = State.raiseInEngine .invalidChar (c.setWidth 32) s) := by
  cases h : validate T with
  | ok S =>
    obtain ⟨D, hD, hl⟩ := decodeSymbols_of_validate h
    exact .inl ⟨S, D, rfl, hD, hl, by simp [decodeText, h, decodePhase, hD]⟩
  | lengthError L => exact .inr (.inl ⟨L, rfl, by simp [decodeText, h]⟩)
  | invalidCharacter c => exact .inr (.inr ⟨c, rfl, by simp [decodeText, h]⟩)

/-- Everything the engine's turn can do when it answers a next state. -/
theorem engineStep_next {s t : State} (h : engineStep s = .next t) :
    (s.pending = none ∧ t = s) ∨
    (∃ n B, s.pending = some ⟨.encode, n⟩ ∧ Memory.readBytes s.inMem 0 n = some B ∧
      t = State.complete (encodeBytes B).length (State.storeOut (encodeBytes B) s)) ∨
    (∃ n T, s.pending = some ⟨.decode, n⟩ ∧ Memory.readBytes s.inMem 0 n = some T ∧ t = decodeText T s) := by
  unfold engineStep at h
  split at h
  · next hp => exact .inl ⟨hp, by simpa using h.symm⟩
  · next p hp =>
    obtain ⟨m, n⟩ := p
    cases m with
    | encode =>
      simp only [completeEncode] at h
      split at h
      · next B hB => exact .inr (.inl ⟨n, B, hp, hB, by simpa using h.symm⟩)
      · simp at h
    | decode =>
      simp only [completeDecode] at h
      split at h
      · next T hT => exact .inr (.inr ⟨n, T, hp, hT, by simpa using h.symm⟩)
      · simp at h

/-! ### The port -/

/-- What a WRITE to an accepted target can change: IN_MEM or IN_LEN outside BUSY, or IE (20_memory.md R67, R69). -/
theorem writeTarget_cases (d : BusData) (s : State) (t : Target) :
    writeTarget d s t = s ∨
    (∃ i, t = .inWindow i ∧ s.state ≠ .busy ∧ writeTarget d s t = State.storeIn i (busBytes d) s) ∨
    (t = .reg .inLen ∧ s.state ≠ .busy ∧ writeTarget d s t = State.setInLen (busWord d) s) ∨
    (t = .reg .irqEn ∧ writeTarget d s t = State.setIe ((busWord d).getLsbD 0) s) := by
  rcases t with r | i | j
  · cases r with
    | inLen =>
      by_cases hb : s.state = .busy
      · exact .inl (if_pos hb)
      · exact .inr (.inr (.inl ⟨rfl, hb, if_neg hb⟩))
    | irqEn => exact .inr (.inr (.inr ⟨rfl, rfl⟩))
    | cmd | status | outLen | errInfo | inCap | outCap => exact .inl rfl
  · by_cases hb : s.state = .busy
    · exact .inl (if_pos hb)
    · exact .inr (.inl ⟨i, rfl, hb, if_neg hb⟩)
  · exact .inl rfl

/-- Everything an access to the port can do when it answers a next state. -/
theorem portAccess_next {a : Access} {s t : State} (h : portAccess a s = .next t) :
    (route s.params (accessWidth a.op) a.off = none ∧ t = State.respond (busError a.op) s) ∨
    (∃ w tg d, a.op = .read w ∧ route s.params w a.off = some tg ∧ readTarget w s tg = some d ∧
      t = State.respond (readDone d) s) ∨
    (∃ d tg, a.op = .write d ∧ route s.params (busWidth d) a.off = some tg ∧
      t = State.respond writeDone (writeTarget d s tg)) := by
  unfold portAccess at h
  split at h
  · next hr => exact .inl ⟨hr, by simpa using h.symm⟩
  · next tg hr =>
    cases hop : a.op with
    | read w =>
      rw [hop] at h hr
      simp only at h
      split at h
      · next d hd => exact .inr (.inl ⟨w, tg, d, rfl, hr, hd, by simpa using h.symm⟩)
      · simp at h
    | write d =>
      rw [hop] at h hr
      exact .inr (.inr ⟨d, tg, rfl, hr, by simpa using h.symm⟩)

/-! ### The step -/

/-- A command write runs the decoded command (44_control.md R200). -/
theorem hostStep_command {a : Access} {s : State} {w : Word} (h : commandWord a = some w) :
    hostStep a s = cmdWrite w (State.respond writeDone s) := by simp [hostStep, h]

theorem hostStep_port {a : Access} {s : State} (h : commandWord a = none) : hostStep a s = portAccess a s := by
  simp [hostStep, h]

/-- Everything a command write can do when it answers a next state. -/
theorem cmdWrite_next {w : Word} {s t : State} (h : cmdWrite w s = .next t) :
    (∃ i, decodeCmd w = .command i ∧ exec i s = .next t) ∨ (decodeCmd w = .illegal ∧ t = illegalCmd w s) := by
  unfold cmdWrite at h
  split at h
  · next i hi => exact .inl ⟨i, hi, h⟩
  · next hi => exact .inr ⟨hi, by simpa using h.symm⟩

/-- Everything a step can do: the engine's turn, a reset, an access outside the aperture, a command write, or another access at the
port; the rest of the turns stay. -/
theorem step_eq (s : State) :
    (s.engineNext = true ∧ s.nextAccess = none ∧ step s = engineStep (State.withEvents s.events.tail s)) ∨
    (s.resetNext = true ∧ s.nextAccess = none ∧ step s = .next (State.applyReset (State.withEvents s.events.tail s))) ∨
    (s.engineNext = false ∧ s.resetNext = false ∧ s.nextAccess = none ∧
      step s = .next (State.withEvents s.events.tail s)) ∨
    (∃ a, s.engineNext = false ∧ s.resetNext = false ∧ s.nextAccess = some a ∧
      step s = hostStep a (State.withEvents s.events.tail s)) := by
  obtain ⟨st, er, ei, il, ol, ie, im, om, pe, pa, re, ev⟩ := s
  cases ev with
  | nil => exact .inl ⟨rfl, rfl, rfl⟩
  | cons e es =>
    cases e with
    | host a => exact .inr (.inr (.inr ⟨a, rfl, rfl, rfl, rfl⟩))
    | bus b =>
      cases ho : apertureOffset pa b.addr with
      | none => exact .inr (.inr (.inl ⟨rfl, rfl, by simp [State.nextAccess, ho], by simp [step, turn, ho]⟩))
      | some off =>
        exact .inr (.inr (.inr ⟨⟨b.op, off⟩, rfl, rfl, by simp [State.nextAccess, ho], by simp [step, turn, ho]⟩))
    | engine => exact .inl ⟨rfl, rfl, rfl⟩
    | reset => exact .inr (.inl ⟨rfl, rfl, rfl⟩)

/-- A command adds no turns. -/
theorem exec_events {i : Instr} {s t : State} (h : exec i s = .next t) : t.events = s.events := by
  rcases exec_next h with ⟨-, rfl⟩ | ⟨m, -, -, -, rfl⟩ | ⟨m, -, -, -, -, rfl⟩ | ⟨-, -, rfl⟩ | ⟨-, -, rfl⟩ <;> rfl

end Sys2Proof.Machine
end

