-- ==== Sys2Proof/Laws/Invariant.lean ====
section
/-! SUPPORT. The invariant, part by part as propositions, and one lemma per operation: it keeps the invariant. -/

namespace Sys2Proof.Machine

/-! ### The parts -/

/-- The constraints of 00_scope.md R5. -/
theorem Params.wf_iff (p : Params) :
    p.wf = true ↔ p.base % apertureSize = 0 ∧ 1 ≤ p.inCap ∧ p.inCap ≤ 49152 ∧ encodedLength p.inCap ≤ p.outCap ∧
      p.outCap ≤ 65536 := by
  simp [Params.wf, Params.baseAligned, Params.inCapInRange, Params.outCapInRange, and_assoc]

theorem State.latchOk_iff (s : State) : s.latchOk = true ↔ (s.state = .busy ↔ s.pending ≠ none) := by
  unfold State.latchOk
  cases hp : s.pending <;> simp

theorem State.operandOk_iff (s : State) :
    s.operandOk = true ↔ ∀ p, s.pending = some p →
      p.n = s.inLen.toNat ∧ p.n ≤ s.params.inCap ∧ Memory.written s.inMem p.n = true := by
  unfold State.operandOk
  split <;> simp_all [and_assoc]

theorem State.errOk_iff (s : State) : s.errOk = true ↔ (s.err ≠ .none ↔ s.state = .error) := by
  rw [State.errOk, beq_iff_eq, decide_eq_decide]

theorem State.outLenOk_iff (s : State) :
    s.outLenOk = true ↔ s.outLen.toNat ≤ s.params.outCap ∧ Memory.written s.outMem s.outLen.toNat = true ∧
      (s.state = .idle ∨ s.state = .done ∨ s.outLen = 0) := by
  simp [State.outLenOk, and_assoc, or_assoc]

theorem State.inv_iff (s : State) :
    s.inv = true ↔ s.params.wf = true ∧ bufferOk s.params.inCap s.inMem = true ∧ bufferOk s.params.outCap s.outMem = true ∧
      s.latchOk = true ∧ s.operandOk = true ∧ s.errOk = true ∧ s.errInfoOk = true ∧ s.outLenOk = true := by
  simp [State.inv, and_assoc]

@[simp] theorem Memory.written_zero (m : Memory) : Memory.written m 0 = true := rfl

/-- An encoding is monotone in its length. -/
theorem encodedLength_mono {a b : Nat} (h : a ≤ b) : encodedLength a ≤ encodedLength b := by
  unfold encodedLength; omega

theorem le_encodedLength (n : Nat) : n ≤ encodedLength n := by unfold encodedLength; omega

/-- The parameters after reset satisfy R5, whatever the implementation chose. -/
theorem Config.params_wf : Params.wf Config.params = true := by
  rw [Params.wf_iff]
  have h1 : 1 ≤ Config.inCap ∧ Config.inCap ≤ 49152 := by unfold Config.inCap; omega
  have h2 : encodedLength Config.inCap ≤ 65536 := encodedLength_mono h1.2
  have h3 : Config.outCapChoice % (65536 - encodedLength Config.inCap + 1) < 65536 - encodedLength Config.inCap + 1 :=
    Nat.mod_lt _ (Nat.succ_pos _)
  refine ⟨Nat.mul_mod_right _ _, h1.1, h1.2, ?_, ?_⟩ <;> show _ ≤ _ <;> simp only [Config.params, Config.outCap] <;> omega

/-! ### The operations keep it -/

theorem inv_respond {s : State} (r : Response) (h : s.inv = true) : (State.respond r s).inv = true := h

theorem inv_withEvents {s : State} (es : List Event) (h : s.inv = true) : (State.withEvents es s).inv = true := h

theorem inv_setIe {s : State} (b : Bool) (h : s.inv = true) : (State.setIe b s).inv = true := h

theorem inv_setInLen {s : State} (w : Word) (h : s.inv = true) (hb : s.state ≠ .busy) : (State.setInLen w s).inv = true := by
  rw [State.inv_iff] at *
  obtain ⟨h1, h2, h3, h4, h5, h6, h7, h8⟩ := h
  refine ⟨h1, h2, h3, h4, ?_, h6, h7, h8⟩
  rw [State.operandOk_iff]
  intro p hp
  exact absurd ((State.latchOk_iff s).1 h4 |>.2 (by rw [State.setInLen_pending] at hp; simp [hp])) hb

theorem inv_storeIn {s : State} (i : Nat) (L : List Byte) (h : s.inv = true) (hi : i + L.length ≤ s.params.inCap) :
    (State.storeIn i L s).inv = true := by
  rw [State.inv_iff] at *
  obtain ⟨h1, h2, h3, h4, h5, h6, h7, h8⟩ := h
  refine ⟨h1, bufferOk_writeBytes i L h2 hi, h3, h4, ?_, h6, h7, h8⟩
  rw [State.operandOk_iff] at *
  exact fun p hp => ⟨(h5 p hp).1, (h5 p hp).2.1, Memory.written_writeBytes i L (h5 p hp).2.2⟩

theorem inv_accept {s : State} (m : Mode) (h : s.inv = true) (hl : s.inLen.toNat ≤ s.params.inCap)
    (hw : Memory.written s.inMem s.inLen.toNat = true) : (State.accept m s.inLen.toNat s).inv = true := by
  rw [State.inv_iff] at *
  obtain ⟨h1, h2, h3, -, -, -, -, -⟩ := h
  refine ⟨h1, h2, h3, rfl, ?_, rfl, rfl, ?_⟩
  · rw [State.operandOk_iff]
    rintro p hp
    obtain rfl : ⟨m, s.inLen.toNat⟩ = p := by simpa using hp
    exact ⟨rfl, hl, hw⟩
  · exact (State.outLenOk_iff _).2 ⟨Nat.zero_le _, rfl, .inr (.inr rfl)⟩

/-- Error entry keeps the invariant where its diagnostic is the one of 10_state.md R29. -/
theorem inv_raiseError {s : State} (e : ErrCode) (w : Word) (h : s.inv = true) (hb : s.state ≠ .busy) (he : e ≠ .none)
    (hi : (State.raiseError e w s).errInfoOk = true) : (State.raiseError e w s).inv = true := by
  rw [State.inv_iff] at *
  obtain ⟨h1, h2, h3, h4, h5, -, -, -⟩ := h
  refine ⟨h1, h2, h3, ?_, h5, ?_, hi, ?_⟩
  · rw [State.latchOk_iff] at *
    simpa [hb] using h4
  · simpa [State.errOk_iff] using he
  · exact (State.outLenOk_iff _).2 ⟨Nat.zero_le _, rfl, .inr (.inr rfl)⟩

theorem inv_raiseInEngine {s : State} (e : ErrCode) (w : Word) (h : s.inv = true) (he : e ≠ .none)
    (hi : (State.raiseInEngine e w s).errInfoOk = true) : (State.raiseInEngine e w s).inv = true := by
  rw [State.inv_iff] at *
  obtain ⟨h1, h2, h3, -, -, -, -, -⟩ := h
  refine ⟨h1, h2, h3, rfl, rfl, ?_, hi, ?_⟩
  · simpa [State.errOk_iff] using he
  · exact (State.outLenOk_iff _).2 ⟨Nat.zero_le _, rfl, .inr (.inr rfl)⟩

/-- A completion keeps the invariant where its result fits in OUT_MEM (43_decoder.md R186). -/
theorem inv_complete {s : State} (L : List Byte) (h : s.inv = true) (hl : L.length ≤ s.params.outCap) :
    (State.complete L.length (State.storeOut L s)).inv = true := by
  rw [State.inv_iff] at *
  obtain ⟨h1, h2, h3, -, -, -, -, -⟩ := h
  have hcap := (Params.wf_iff _).1 h1
  have hmod : L.length % 2 ^ 32 = L.length := Nat.mod_eq_of_lt (by omega)
  refine ⟨h1, h2, bufferOk_writeBytes 0 L h3 (by simpa using hl), rfl, rfl, rfl, rfl, ?_⟩
  rw [State.outLenOk_iff, State.complete_outLen, BitVec.toNat_ofNat, hmod]
  refine ⟨hl, ?_, .inr (.inl rfl)⟩
  rw [Memory.written]
  exact Option.isSome_iff_exists.2 ⟨L, Memory.readBytes_writeBytes s.outMem 0 L⟩

theorem inv_acknowledge {s : State} (h : s.inv = true) (hs : s.state = .done ∨ s.state = .error) :
    (State.acknowledge s).inv = true := by
  rw [State.inv_iff] at *
  obtain ⟨h1, h2, h3, h4, h5, -, -, h8⟩ := h
  refine ⟨h1, h2, h3, ?_, h5, rfl, rfl, ?_⟩
  · rw [State.latchOk_iff] at *
    rcases hs with hs | hs <;> simpa [hs] using h4
  · rw [State.outLenOk_iff] at *
    exact ⟨h8.1, h8.2.1, .inl rfl⟩

/-- Reset establishes the invariant for every well-formed choice of parameters (10_state.md R41). -/
theorem inv_applyReset {s : State} (h : s.params.wf = true) : (State.applyReset s).inv = true := by
  rw [State.inv_iff]
  exact ⟨h, rfl, rfl, rfl, rfl, rfl, rfl, (State.outLenOk_iff _).2 ⟨Nat.zero_le _, rfl, .inl rfl⟩⟩

/-! ### Accesses -/

theorem busBytes_length (d : BusData) : (busBytes d).length = widthBytes (busWidth d) := by cases d <;> rfl

/-- What an access routed to the IN window satisfies (20_memory.md R65). -/
theorem route_inWindow {p : Params} {w : Width} {off : Offset} {i : Nat} (h : route p w off = some (.inWindow i)) :
    off.toNat = 0x10000 + i ∧ i + widthBytes w ≤ p.inCap ∧ off.toNat % widthBytes w = 0 := by
  unfold route at h
  split at h
  · split at h <;> simp at h
  · split at h
    · next hw => simp [inWindowAt] at hw h; omega
    · split at h <;> simp at h

/-- What an access routed to a register satisfies (20_memory.md R64). -/
theorem route_reg {p : Params} {w : Width} {off : Offset} {r : Reg} (h : route p w off = some (.reg r)) :
    off.toNat < 0x20 ∧ w = .w4 ∧ regAt off = some r := by
  unfold route at h
  split at h
  · next h0 =>
    split at h
    · next h1 => exact ⟨h0, h1, by simpa using h⟩
    · simp at h
  · split at h
    · simp at h
    · split at h <;> simp at h

end Sys2Proof.Machine
end

