-- ==== Sys2Proof/Laws/PerInstr.lean ====
section
/-! SUPPORT. Statements about every instruction as syntax, one lemma per constructor (30_encoding.md R90, R91). -/

namespace Sys2Proof.Laws.CommandWordShape

/-- The word of an instruction has RSV 0 and the instruction's OP, and passes the well-formedness check on command words. -/
def Statement (i : Instr) : Prop :=
  rsvField (Sys2Proof.encode i) = 0 ∧ opField (Sys2Proof.encode i) = opCode i ∧ wfCommandWord (Sys2Proof.encode i) = true ∧ i.wf = true

theorem encode : Statement .encode := by unfold Statement; decide

theorem decode : Statement .decode := by unfold Statement; decide

theorem ack : Statement .ack := by unfold Statement; decide

end Sys2Proof.Laws.CommandWordShape
end

