-- ==== Sys2Proof/Laws/RoundTrip.lean ====
section
/-! SUPPORT. What a whole operation, the host's copy and the round trip of 41_encoder.md R139 answer. -/

namespace Sys2Proof.Machine

@[simp] theorem nextState_next (t : State) : nextState (.next t) = some t := rfl

@[simp] theorem nextState_fault (r : Fault) : nextState (.fault r) = none := rfl

@[simp] theorem nextState_refused (r : Refusal) : nextState (.refused r) = none := rfl

/-- Both operations read the input the command found, since acceptance leaves IN_MEM. -/
theorem startOp_of_input {m : Mode} {s : State} {B : List Byte} (hl : s.inLen.toNat ≤ s.params.inCap)
    (hB : Memory.readBytes s.inMem 0 s.inLen.toNat = some B) : startOp m s = .next (State.accept m s.inLen.toNat s) :=
  startOp_accept hl (by rw [Memory.written, hB]; rfl)

/-- A whole ENCODE over written input ends in its completion. -/
theorem runOperation_encode {s : State} {B : List Byte} (hb : s.state ≠ .busy) (hl : s.inLen.toNat ≤ s.params.inCap)
    (hB : Memory.readBytes s.inMem 0 s.inLen.toNat = some B) :
    runOperation .encode s = .next (State.complete (encodeBytes B).length
      (State.storeOut (encodeBytes B) (State.accept .encode s.inLen.toNat s))) := by
  simp only [runOperation, exec_encode hb, startOp_of_input hl hB]
  simp [turn, engineStep, completeEncode, hB]

/-- A whole DECODE over written input ends in the decoding of its text. -/
theorem runOperation_decode {s : State} {T : List Byte} (hb : s.state ≠ .busy) (hl : s.inLen.toNat ≤ s.params.inCap)
    (hT : Memory.readBytes s.inMem 0 s.inLen.toNat = some T) :
    runOperation .decode s = .next (decodeText T (State.accept .decode s.inLen.toNat s)) := by
  simp only [runOperation, exec_decode hb, startOp_of_input hl hT]
  simp [turn, engineStep, completeDecode, hT]

/-- The host's copy is answered exactly where the written result fits in IN_MEM. -/
theorem copyResultBack_eq_some {s v : State} :
    copyResultBack s = some v ↔ s.outLen.toNat ≤ s.params.inCap ∧
      ∃ E, Memory.readBytes s.outMem 0 s.outLen.toNat = some E ∧ v = State.setInLen s.outLen (State.storeIn 0 E s) := by
  unfold copyResultBack
  split
  · next hl => simp [hl, eq_comm]
  · next hl => simp [hl]

/-- After the copy, the input of the next operation is the result of the last one. -/
theorem copyResultBack_input {s v : State} (h : copyResultBack s = some v) :
    v.inLen = s.outLen ∧ v.state = s.state ∧ v.params = s.params ∧ v.outMem = s.outMem ∧
      Memory.readBytes v.inMem 0 v.inLen.toNat = Memory.readBytes s.outMem 0 s.outLen.toNat := by
  obtain ⟨-, E, hE, rfl⟩ := copyResultBack_eq_some.1 h
  have hn : E.length = s.outLen.toNat := ((Memory.readBytes_eq_some_iff _ _ _ _).1 hE).1
  refine ⟨rfl, rfl, rfl, rfl, ?_⟩
  rw [hE, ← Memory.readBytes_writeBytes s.inMem 0 E, hn]
  rfl

/-- Everything the round trip can answer: an ENCODE, the copy and a DECODE, each ending in its next state. -/
theorem roundTrip_eq_some {s y : State} :
    roundTrip s = some y ↔ ∃ u v, runOperation .encode s = .next u ∧ copyResultBack u = some v ∧
      runOperation .decode v = .next y := by
  have hn : ∀ (o : StepResult) (t : State), nextState o = some t ↔ o = .next t := fun o t => by cases o <;> simp
  simp only [roundTrip, Option.bind_eq_some_iff, hn]
  exact ⟨fun ⟨v, ⟨u, hu, hc⟩, hy⟩ => ⟨u, v, hu, hc, hy⟩, fun ⟨u, v, hu, hc, hy⟩ => ⟨v, ⟨u, hu, hc⟩, hy⟩⟩

end Sys2Proof.Machine
end

