-- ==== Sys2Proof/Laws/Run.lean ====
section
/-! SUPPORT. The turns of a run, and the runs of the host's interface one step at a time. -/

namespace Sys2Proof.Machine

/-- A step takes the turn at the head and adds none. -/
theorem step_events {s t : State} (h : step s = .next t) : t.events = s.events.tail := by
  rcases step_eq s with ⟨-, -, he⟩ | ⟨-, -, he⟩ | ⟨-, -, -, he⟩ | ⟨a, -, -, -, he⟩ <;> rw [he] at h
  · rcases engineStep_next h with ⟨-, rfl⟩ | ⟨n, B, -, -, rfl⟩ | ⟨n, T, -, -, rfl⟩
    · rfl
    · rfl
    · rcases decodeText_cases T (State.withEvents s.events.tail s) with ⟨S, D, -, -, -, g⟩ | ⟨L, -, g⟩ | ⟨c, -, g⟩ <;>
        rw [g] <;> rfl
  · obtain rfl := by simpa using h
    rfl
  · obtain rfl := by simpa using h
    rfl
  · cases hc : commandWord a with
    | some w =>
      rw [hostStep_command hc] at h
      rcases cmdWrite_next h with ⟨i, -, hx⟩ | ⟨-, rfl⟩
      · exact exec_events hx
      · unfold illegalCmd
        split <;> rfl
    | none =>
      rw [hostStep_port hc] at h
      rcases portAccess_next h with ⟨-, rfl⟩ | ⟨w, tg, d, -, -, -, rfl⟩ | ⟨d, tg, -, -, rfl⟩
      · rfl
      · rfl
      · rcases writeTarget_cases d (State.withEvents s.events.tail s) tg with g | ⟨i, -, -, g⟩ | ⟨-, -, g⟩ | ⟨-, g⟩ <;>
          rw [g] <;> rfl

/-- In a state that meets the invariant the engine's turn always answers a next state, and ends a pending operation. -/
theorem engineStep_of_inv {s : State} (h : s.inv = true) :
    ∃ t, engineStep s = .next t ∧ (s.pending ≠ none → t.state = .done ∨ t.state = .error) := by
  cases hp : s.pending with
  | none => exact ⟨s, by simp [engineStep, hp], fun h => absurd rfl h⟩
  | some p =>
    obtain ⟨m, n⟩ := p
    have hw := ((State.operandOk_iff _).1 ((State.inv_iff s).1 h).2.2.2.2.1 _ hp).2.2
    obtain ⟨B, hB⟩ := Option.isSome_iff_exists.1 hw
    cases m with
    | encode =>
      exact ⟨State.complete (encodeBytes B).length (State.storeOut (encodeBytes B) s),
        by simp only [engineStep, hp, completeEncode, hB], fun _ => .inl rfl⟩
    | decode =>
      refine ⟨decodeText B s, by simp only [engineStep, hp, completeDecode, hB], fun _ => ?_⟩
      rcases decodeText_cases B s with ⟨S, D, -, -, -, g⟩ | ⟨L, -, g⟩ | ⟨c, -, g⟩ <;> rw [g]
      · exact .inl rfl
      · exact .inr rfl
      · exact .inr rfl

theorem core_run_zero (s : State) : Host.Core.run Sys2Proof.core 0 s = .next s := rfl

theorem core_run_next {k : Nat} {s u : State} (h : step s = .next u) :
    Host.Core.run Sys2Proof.core (k + 1) s = Host.Core.run Sys2Proof.core k u := by
  have h' : Host.Core.step Sys2Proof.core s = .next u := h
  simp only [Host.Core.run, h']

theorem core_run_fault {k : Nat} {s : State} {r : Fault} (h : step s = .fault r) :
    Host.Core.run Sys2Proof.core (k + 1) s = .fault r := by
  have h' : Host.Core.step Sys2Proof.core s = .fault r := h
  simp only [Host.Core.run, h']

theorem core_run_refused {k : Nat} {s : State} {r : Refusal} (h : step s = .refused r) :
    Host.Core.run Sys2Proof.core (k + 1) s = .refused r := by
  have h' : Host.Core.step Sys2Proof.core s = .refused r := h
  simp only [Host.Core.run, h']

end Sys2Proof.Machine
end

