-- ==== Sys2Proof/Tests/Slice0.lean ====
section
/-! SUPPORT. Tests: the well-formedness checks, the command words, worked examples of 95_test_vectors.md, and for every statement with
hypotheses a concrete state that meets them. The parameters are those of 95_test_vectors.md (IN_CAP = 48, OUT_CAP = 64). -/

namespace Sys2Proof.Tests
open Sys2Proof.Machine

/-- "IN_CAP = 48 and OUT_CAP = 64" (95_test_vectors.md). -/
def vectorParams : Params := { base := 0x80000, inCap := 48, outCap := 64, irqLine := 5 }

/-- The state after reset with `B` written to `IN[0..]`, IN_LEN = |B|, and the turns `es` to come. -/
def loaded (B : List Byte) (es : List Event) : State :=
  State.setInLen (BitVec.ofNat 32 B.length) (State.storeIn 0 B (State.resetWith vectorParams es))

/-- A WRITE of a 32-bit word. -/
def w32 (off : Offset) (v : Word) : Event := .host ⟨.write (.b4 v), off⟩

/-- STATUS, OUT_LEN and ERR_INFO of an outcome, with the first k bytes of OUT_MEM. -/
def seen (k : Nat) (o : StepResult) : Option (Word × Word × Word × Option (List Byte)) :=
  match o with
  | .next t => some (t.statusWord, t.outLen, t.errInfo, Memory.readBytes t.outMem 0 k)
  | .fault _ => none
  | .refused _ => none

/-- A state in BUSY: an ENCODE of [4D] was accepted. -/
def busyState (es : List Event) : State := State.accept .encode 1 (loaded [0x4D] es)

/-- A state in DONE with "Zm9v" in OUT_MEM (vector E6). -/
def doneState (es : List Event) : State :=
  State.complete 4 (State.storeOut [0x5A, 0x6D, 0x39, 0x76] (loaded [0x66, 0x6F, 0x6F] es))

/-- A state in ERROR with INVALID_CHAR 0x21 (vector D23). -/
def errorState (es : List Event) : State := State.raiseError .invalidChar 0x21 (loaded [0x5A, 0x6D, 0x39, 0x21] es)

/-! ### Well-formedness: each check refuses an ill-formed term -/

theorem test_wf_params_ok : vectorParams.wf = true := by decide

theorem test_wf_base_refused : (Params.mk 0x20000 48 64 0).baseAligned = false := by decide

theorem test_wf_inCap_zero_refused : (Params.mk 0 0 64 0).inCapInRange = false := by decide

theorem test_wf_inCap_above_refused : (Params.mk 0 49153 65536 0).inCapInRange = false := by decide

theorem test_wf_outCap_below_refused : (Params.mk 0 48 63 0).outCapInRange = false := by decide

theorem test_wf_outCap_above_refused : (Params.mk 0 48 65537 0).outCapInRange = false := by decide

theorem test_wf_params_refused : (Params.mk 0 48 63 0).wf = false := by decide

theorem test_wf_word_rsv_refused : rsvClear 0x80000001#32 = false ∧ wfCommandWord 0x80000001#32 = false := by decide

theorem test_wf_word_op_refused : opAssigned 0x00000004#32 = false ∧ wfCommandWord 0x00000000#32 = false := by decide

/-! ### Command words, from 30_encoding.md R90 and R91: RSV [31:4], then OP [3:0] -/

theorem test_decode_encode_word : decodeCmd (0b0000000000000000000000000000#28 ++ 0b0001#4) = .command .encode := by decide

theorem test_decode_decode_word : decodeCmd (0b0000000000000000000000000000#28 ++ 0b0010#4) = .command .decode := by decide

theorem test_decode_ack_word : decodeCmd (0b0000000000000000000000000000#28 ++ 0b0011#4) = .command .ack := by decide

/-- Vectors C1 to C4. -/
theorem test_decode_illegal_words :
    [0x00000011#32, 0x00000000#32, 0x80000001#32, 0x00000004#32, 0x0000000F#32].map decodeCmd = List.replicate 5 .illegal := by
  decide

theorem test_decodeTableWord : [1, 2, 3, 4].map (decodeTableWord 32) = [some .encode, some .decode, some .ack, none] := by
  decide

/-- The first instruction after reset, whatever the parameters are. -/
theorem test_first_instruction_after_reset :
    step (State.reset.withFetchWord 32 1) = exec .encode (State.respond writeDone State.reset) ∧
      step (State.reset.withFetchWord 32 2) = exec .decode (State.respond writeDone State.reset) ∧
      step (State.reset.withFetchWord 32 3) = exec .ack (State.respond writeDone State.reset) := ⟨rfl, rfl, rfl⟩

theorem test_encode_runs_after_reset :
    seen 0 (step (State.reset.withFetchWord 32 1)) = some (0x00000001#32, 0, 0, some []) := by decide

/-! ### The alphabet (95_test_vectors.md L2.1) -/

theorem test_symbolFor_table_A :
    [0, 25, 26, 51, 52, 61, 62, 63].map symbolFor = [0x41, 0x5A, 0x61, 0x7A, 0x30, 0x39, 0x2B, 0x2F] := by decide

theorem test_valueFor_table_B :
    [0x40, 0x5B, 0x60, 0x7B, 0x2C, 0x2E, 0x3A, 0x2D, 0x5F, 0x0A, 0x3D, 0x21, 0x20, 0x00, 0x80, 0xFF].map valueFor =
      List.replicate 16 none := by decide

/-- The order of R110, as the source writes it. -/
theorem test_alphabet_order :
    ((List.range 64).map fun v => (symbolFor (BitVec.ofNat 6 v)).toNat) =
      "ABCDEFGHIJKLMNOPQRSTUVWXYZabcdefghijklmnopqrstuvwxyz0123456789+/".toList.map Char.toNat := by decide

/-! ### ENCODE, DECODE and ACK (95_test_vectors.md L1, L2.2, L2.4, L2.5) -/

/-- X2 / E6. -/
theorem test_encode_foo :
    seen 4 (runOperation .encode (loaded [0x66, 0x6F, 0x6F] [])) = some (2, 4, 0, some [0x5A, 0x6D, 0x39, 0x76]) := by decide

/-- E14, with value-padding and two PAD bytes. -/
theorem test_encode_foob : encodeBytes [0x66, 0x6F, 0x6F, 0x62] = [0x5A, 0x6D, 0x39, 0x76, 0x59, 0x67, 0x3D, 0x3D] := by decide

/-- X4 / D2. -/
theorem test_decode_TQ :
    seen 1 (runOperation .decode (loaded [0x54, 0x51, 0x3D, 0x3D] [])) = some (2, 1, 0, some [0x4D]) := by decide

/-- D24: the length check comes before the alphabet check; D26: the first offender is reported. -/
theorem test_decode_length_error :
    seen 0 (runOperation .decode (loaded [0x5A, 0x6D, 0x39, 0x21, 0x21] [])) = some (0x13, 0, 5, some []) := by decide

theorem test_decode_invalid_char :
    seen 0 (runOperation .decode (loaded [0x5A, 0x21, 0x6D, 0x3F] [])) = some (0x23, 0, 0x21, some []) := by decide

/-- C11 and C12. -/
theorem test_ack_done : seen 4 (exec .ack (doneState [])) = some (0, 4, 0, some [0x5A, 0x6D, 0x39, 0x76]) := by decide

theorem test_ack_error : seen 0 (exec .ack (errorState [])) = some (0, 0, 0, some []) := by decide

/-- R138 and R188 on E13 and D14. -/
theorem test_datapaths :
    encodeAccumulator [0x14, 0xFB, 0x9C, 0x03, 0xD9, 0x7E] = [0x46, 0x50, 0x75, 0x63, 0x41, 0x39, 0x6C, 0x2B] ∧
      (symbolValues [0x46, 0x50, 0x75, 0x63, 0x41, 0x39, 0x6C, 0x2B]).map regroupAccumulator =
        some [0x14, 0xFB, 0x9C, 0x03, 0xD9, 0x7E] := by decide

/-! ### The port (95_test_vectors.md L2.6) -/

/-- C1: an illegal word. -/
theorem test_illegal_word : seen 0 (step (loaded [] [w32 0x00 0x11])) = some (0x53, 0, 0x11, some []) := by decide

/-- B2: a 2-byte WRITE, little-endian. -/
theorem test_write16 :
    ∃ t, step (loaded [0x66, 0x6F, 0x6F, 0x00] [.host ⟨.write (.b2 0xBEEF), 0x10002#18⟩]) = .next t ∧
      Memory.readBytes t.inMem 0 4 = some [0x66, 0x6F, 0xEF, 0xBE] := ⟨_, rfl, by decide⟩

/-- E18 and B15: the first OUT word in DONE, and 0 in BUSY. -/
theorem test_read_out :
    (∃ t, step (doneState [.host ⟨.read .w4, 0x20000#18⟩]) = .next t ∧ t.response = some ⟨false, some (.b4 0x76396D5A)⟩) ∧
      ∃ t, step (busyState [.host ⟨.read .w4, 0x20000#18⟩]) = .next t ∧ t.response = some ⟨false, some (.b4 0)⟩ :=
  ⟨⟨_, rfl, by decide⟩, ⟨_, rfl, by decide⟩⟩

/-- B17: a READ of a byte never written. -/
theorem test_read_unwritten : step (loaded [] [.host ⟨.read .w1, 0x10005#18⟩]) = .fault .unwrittenRead := rfl

/-- I6: IE written to 1 in DONE raises `irq` at once. -/
theorem test_irq_enable :
    (doneState []).irq = false ∧ ∃ t, step (doneState [w32 0x14 1]) = .next t ∧ t.irq = true := ⟨by decide, _, rfl, by decide⟩

/-! ### Witnesses: each statement's hypotheses are met -/

theorem witness_StepRunsTheDecodedCommand :
    ((loaded [] [w32 0x00 1]).events = .host ⟨.write (.b4 1), 0x00#18⟩ :: [] ∧ decodeCmd 1 = .command .encode) ∧
      decodeTableWord 32 3 = some .ack := by decide

/-- The least and the greatest illegal word, and the word after the last command. -/
theorem witness_IllegalWordsRaiseIllegalCommand :
    ∀ w ∈ [0x00000000#32, 0x00000004#32, 0xFFFFFFFF#32],
      (loaded [] [w32 0x00 w]).events = .host ⟨.write (.b4 w), 0x00#18⟩ :: [] ∧ (loaded [] [w32 0x00 w]).state = .idle ∧
        (w ≠ 0x00000001#32 ∧ w ≠ 0x00000002#32 ∧ w ≠ 0x00000003#32) := by
  intro w hw
  refine ⟨rfl, rfl, ?_⟩
  simp only [List.mem_cons, List.not_mem_nil, or_false] at hw
  obtain rfl | rfl | rfl := hw <;> decide

theorem witness_CommandWritesWhileBusyAreDropped :
    (busyState [w32 0x00 3]).state = .busy ∧
      (busyState [w32 0x00 3]).events = .host ⟨.write (.b4 3), 0x00#18⟩ :: [] := by decide

theorem witness_EncodingHasFourBytesPerThree :
    vectorParams.wf = true ∧ (List.replicate 48 (0x4D : Byte)).length ≤ vectorParams.inCap := by decide

/-- One input for each of the three cases. -/
theorem witness_SymbolPaddingFollowsTheLength :
    ([] : List Byte).length % 3 = 0 ∧ [(0x4D : Byte)].length % 3 = 1 ∧ [(0x4D : Byte), 0x61].length % 3 = 2 := by decide

/-- V7, V8 and V3: each verdict occurs. -/
theorem witness_ValidatorVerdictsAreTheFourSteps :
    validate [0x5A, 0x6D, 0x39] = .lengthError 3 ∧ validate [0x5A, 0x6D, 0x39, 0x21] = .invalidCharacter 0x21 ∧
      validate [0x54, 0x51, 0x3D, 0x3D] = .ok [0x54, 0x51] := by decide

/-- V5 and V4. -/
theorem witness_RevalidationFailsOnlyByLength :
    (validate [0x5A, 0x6D, 0x39, 0x76] = .ok [0x5A, 0x6D, 0x39, 0x76] ∧ [(0x5A : Byte), 0x6D, 0x39, 0x76].length % 4 = 0) ∧
      validate [0x54, 0x51, 0x3D, 0x3D] = .ok [0x54, 0x51] ∧ [(0x54 : Byte), 0x51].length % 4 ≠ 0 := by decide

/-- D3, D17, D2 and D6: `|T2| mod 4` is 0, 1, 2, 3. -/
theorem witness_DecodingHasThreeBytesPerFour :
    validate [0x5A, 0x6D, 0x39, 0x76] = .ok [0x5A, 0x6D, 0x39, 0x76] ∧ validate [0x41, 0x3D, 0x3D, 0x3D] = .ok [0x41] ∧
      validate [0x54, 0x51, 0x3D, 0x3D] = .ok [0x54, 0x51] ∧ validate [0x54, 0x57, 0x45, 0x3D] = .ok [0x54, 0x57, 0x45] := by
  decide

theorem witness_DecoderDatapathRefinesTheRegrouping : symbolValues [0x54, 0x51] = some [19, 16] := by decide

/-- IN_LEN at 0 and at IN_CAP. -/
theorem witness_EncodeAndDecodeAreAccepted :
    ∀ s ∈ [loaded [] [], loaded (List.replicate 48 0x4D) []],
      s.state ≠ .busy ∧ s.inLen.toNat ≤ s.params.inCap ∧ ∀ i < s.inLen.toNat, Memory.read s.inMem i ≠ none := by decide +kernel

/-- IN_LEN at IN_CAP + 1 and at its greatest value (C5, C6). -/
theorem witness_LengthBeyondCapacityIsAParamError :
    ∀ w ∈ [49#32, 0xFFFFFFFF#32], (State.setInLen w (loaded [] [])).state = .idle ∧
      (State.setInLen w (loaded [] [])).pending = none ∧
      (State.setInLen w (loaded [] [])).params.inCap < (State.setInLen w (loaded [] [])).inLen.toNat := by
  intro w hw
  refine ⟨rfl, rfl, ?_⟩
  show 48 < w.toNat
  simp only [List.mem_cons, List.not_mem_nil, or_false] at hw
  obtain rfl | rfl := hw <;> decide

/-- Only the last of IN_CAP bytes is unwritten. -/
theorem witness_UnwrittenInputFaultsAtAcceptance :
    (State.setInLen 48 (loaded (List.replicate 47 0x4D) [])).state ≠ .busy ∧
      (State.setInLen 48 (loaded (List.replicate 47 0x4D) [])).inLen.toNat ≤ 48 ∧
      ∃ i < 48, Memory.read (State.setInLen 48 (loaded (List.replicate 47 0x4D) [])).inMem i = none := by decide +kernel

theorem witness_AcknowledgeReturnsToIdle :
    (doneState []).state = .done ∧ (errorState []).state = .error ∧ (loaded [] []).state = .idle := by decide

theorem witness_EncodeCompletionWritesTheEncoding :
    (busyState []).pending = some ⟨.encode, 1⟩ ∧ Memory.readBytes (busyState []).inMem 0 1 = some [0x4D] := by decide

/-- DECODE states for the three verdicts. -/
theorem witness_DecodeCompletionWritesTheDecodingOrTheError :
    ∀ T ∈ [([0x54, 0x51, 0x3D, 0x3D] : List Byte), [0x5A, 0x6D, 0x39], [0x5A, 0x6D, 0x39, 0x21]],
      (State.accept .decode T.length (loaded T [])).pending = some ⟨.decode, T.length⟩ ∧
        Memory.readBytes (State.accept .decode T.length (loaded T [])).inMem 0 T.length = some T := by decide

theorem witness_EncodeRunsToItsResult :
    (loaded [0x4D] []).state ≠ .busy ∧ (loaded [0x4D] []).inLen.toNat ≤ (loaded [0x4D] []).params.inCap ∧
      Memory.readBytes (loaded [0x4D] []).inMem 0 (loaded [0x4D] []).inLen.toNat = some [0x4D] := by decide

/-- DECODE inputs for the three verdicts. -/
theorem witness_DecodeRunsToItsResult :
    ∀ T ∈ [([0x54, 0x51, 0x3D, 0x3D] : List Byte), [0x5A, 0x6D, 0x39], [0x5A, 0x6D, 0x39, 0x21]],
      (loaded T []).state ≠ .busy ∧ (loaded T []).inLen.toNat ≤ (loaded T []).params.inCap ∧
        Memory.readBytes (loaded T []).inMem 0 (loaded T []).inLen.toNat = some T := by decide

/-- Two states that differ beyond the input. -/
theorem witness_ResultDependsOnlyOnTheInput :
    (busyState []).pending = some ⟨.encode, 1⟩ ∧ (State.storeIn 1 [0xFF] (busyState [])).pending = some ⟨.encode, 1⟩ ∧
      (∀ i < 1, Memory.read (busyState []).inMem i = Memory.read (State.storeIn 1 [0xFF] (busyState [])).inMem i) ∧
      ∃ t, turn .engine (busyState []) = .next t := ⟨by decide, by decide, by decide, _, rfl⟩

theorem witness_QuiescentMachineStaysAsItIs : (doneState []).pending = none ∧ (doneState []).events = [] := by decide

/-- A state no run reaches, which keeps the code it has. -/
theorem witness_NoStepProducesUnmappable :
    ∃ t, step (State.raiseError .unmappable 0 (loaded [] [])) = .next t ∧ t.err = .unmappable := ⟨_, rfl, by decide⟩

/-- A narrow and a misaligned register access, the first and the last unmapped offsets, a misaligned buffer access, and accesses past
the windows (B6, B7, B9-B13). -/
theorem witness_MalformedAccessesGetABusError :
    ∀ a ∈ [Access.mk (.read .w2) 0x04, ⟨.read .w4, 0x02⟩, ⟨.write (.b1 1), 0x1F⟩, ⟨.read .w4, 0x20⟩, ⟨.write (.b2 1), 0x10001⟩,
        ⟨.write (.b1 0), 0x10030⟩, ⟨.read .w4, 0x2003E⟩, ⟨.read .w1, 0x20040⟩, ⟨.read .w1, 0x3FFFF⟩],
      (a.off.toNat < 0x20 → ¬(widthBytes (accessWidth a.op) = 4 ∧ a.off.toNat % 4 = 0)) ∧
      ¬(0x10000 ≤ a.off.toNat ∧ a.off.toNat + widthBytes (accessWidth a.op) ≤ 0x10000 + 48 ∧
        a.off.toNat % widthBytes (accessWidth a.op) = 0) ∧
      ¬(0x20000 ≤ a.off.toNat ∧ a.off.toNat + widthBytes (accessWidth a.op) ≤ 0x20000 + 64 ∧
        a.off.toNat % widthBytes (accessWidth a.op) = 0) := by decide

/-- The last accesses inside each window. -/
theorem witness_AddressMapPlacesRegistersAndWindows :
    vectorParams.wf = true ∧ (0x1002C#18).toNat % 4 = 0 ∧ (0x1002C#18).toNat + widthBytes .w4 ≤ 0x10000 + vectorParams.inCap ∧
      (0x2003F#18).toNat % 1 = 0 ∧ (0x2003F#18).toNat + widthBytes .w1 ≤ 0x20000 + vectorParams.outCap := by decide

theorem witness_RegisterReadsReturnTheirValues :
    (doneState [.host ⟨.read .w4, 0x04#18⟩]).events = .host ⟨.read .w4, 0x04#18⟩ :: [] ∧
      BitVec.ofNat 32 (16 * (doneState []).err.code.toNat + (doneState []).state.code.toNat) = 2#32 := by decide

theorem witness_LengthAndEnableWritesStore :
    ((loaded [] [w32 0x08 5]).events = .host ⟨.write (.b4 5), 0x08#18⟩ :: [] ∧ (loaded [] [w32 0x08 5]).state ≠ .busy) ∧
      ((busyState [w32 0x08 5]).events = .host ⟨.write (.b4 5), 0x08#18⟩ :: [] ∧ (busyState [w32 0x08 5]).state = .busy) ∧
      (busyState [w32 0x14 1]).events = .host ⟨.write (.b4 1), 0x14#18⟩ :: [] := by decide

/-- One access for each of the five clauses. -/
theorem witness_IgnoredWritesSucceedAndChangeNothing :
    (loaded [] [w32 0x04 0xFFFFFFFF]).events = .host ⟨.write (.b4 0xFFFFFFFF), 0x04#18⟩ :: [] ∧
      (0xFFFFFFFE#32).getLsbD 0 = (loaded [] []).ie ∧
      (vectorParams.wf = true ∧ 0x20000 ≤ (0x2003C#18).toNat ∧ (0x2003C#18).toNat + widthBytes (busWidth (.b4 1)) ≤ 0x20000 + 64 ∧
        (0x2003C#18).toNat % widthBytes (busWidth (.b4 1)) = 0) ∧
      ((busyState []).state = .busy ∧ (0x1002F#18).toNat + widthBytes (busWidth (.b1 1)) ≤ 0x10000 + 48) ∧
      (busyState [.host ⟨.read .w4, 0x00#18⟩]).events = .host ⟨.read .w4, 0x00#18⟩ :: [] := by decide

/-- The last word of the IN window, outside BUSY and in BUSY. -/
theorem witness_InputWritesAreLittleEndian :
    (0x1002C#18).toNat = 0x10000 + 44 ∧ (0x1002C#18).toNat % 4 = 0 ∧ 44 + 4 ≤ (loaded [] []).params.inCap ∧
      (loaded [] []).state ≠ .busy ∧ (busyState []).state = .busy := by decide

/-- A written and an unwritten half-word of the IN window. -/
theorem witness_InputReadsReturnTheBytes :
    (∀ k < widthBytes .w2, Memory.read (loaded [0x66, 0x6F] []).inMem (0 + k) ≠ none) ∧
      (∃ k < widthBytes .w2, Memory.read (loaded [0x66, 0x6F, 0x6F] []).inMem (2 + k) = none) ∧
      2 + widthBytes .w2 ≤ (loaded [] []).params.inCap := by decide

/-- A written and an unwritten half-word of the OUT window in DONE, and any in BUSY. -/
theorem witness_OutputReadsReturnTheBytesOutsideBusy :
    (∀ k < widthBytes .w2, Memory.read (doneState []).outMem (2 + k) ≠ none) ∧ (doneState []).state ≠ .busy ∧
      (∃ k < widthBytes .w2, Memory.read (doneState []).outMem (62 + k) = none) ∧ (busyState []).state = .busy ∧
      62 + widthBytes .w2 ≤ (doneState []).params.outCap ∧ (doneState []).params.wf = true := by decide

theorem witness_ReadsHaveNoSideEffect : ∃ t, step (doneState [.host ⟨.read .w1, 0x20003#18⟩]) = .next t := ⟨_, rfl⟩

/-- A command, an IRQ_EN write and a READ of an unwritten byte, all in BUSY. -/
theorem witness_BusyLocksTheOperation :
    ∀ a ∈ [Access.mk (.write (.b4 1)) 0x00, ⟨.write (.b4 1), 0x14⟩, ⟨.read .w1, 0x1002F⟩],
      (busyState [.host a]).events = .host a :: [] ∧ (busyState [.host a]).state = .busy ∧
        (busyState [.host a]).params.wf = true := by decide +kernel

/-- The first and last addresses of the aperture, and the two next to it. -/
theorem witness_HostAddressesReachTheirOffset :
    apertureOffset vectorParams 0x80000 = some 0 ∧ apertureOffset vectorParams 0xBFFFF = some 0x3FFFF ∧
      apertureOffset vectorParams 0x7FFFF = none ∧ apertureOffset vectorParams 0xC0000 = none := by decide

theorem witness_ResetAppliesInEveryState : (busyState [.reset]).events = .reset :: [] := rfl

/-- `irq` at 1 in DONE with IE, falling by each listed way, and rising by each. -/
theorem witness_InterruptFallsAndRisesOnlyAsListed :
    (∀ e ∈ [Event.reset, w32 0x00 3, w32 0x00 1, w32 0x14 0], ∃ t, step (State.setIe true (doneState [e])) = .next t ∧
      (State.setIe true (doneState [e])).irq = true ∧ t.irq = false) ∧
    (∃ t, step (State.setIe true (busyState [])) = .next t ∧ t.irq = true) ∧
    (∃ t, step (doneState [w32 0x14 1]) = .next t ∧ t.irq = true) ∧
    ∃ t, step (State.setIe true (loaded [] [w32 0x00 0])) = .next t ∧ t.irq = true := by
  refine ⟨?_, ⟨_, rfl, by decide⟩, ⟨_, rfl, by decide⟩, ⟨_, rfl, by decide⟩⟩
  simp only [List.forall_mem_cons]
  exact ⟨⟨_, rfl, by decide, by decide⟩, ⟨_, rfl, by decide, by decide⟩, ⟨_, rfl, by decide, by decide⟩,
    ⟨_, rfl, by decide, by decide⟩, fun _ h => by cases h⟩

/-- One step for each column of the transition table. -/
theorem witness_StateFollowsTheTransitionTable :
    ((busyState [.reset]).resetNext = true ∧ ∃ t, step (busyState [.reset]) = .next t) ∧
    ((busyState []).engineNext = true ∧ (busyState []).pending ≠ none ∧ ∃ t, step (busyState []) = .next t) ∧
    ((doneState [.engine]).engineNext = true ∧ (doneState []).pending = none ∧ ∃ t, step (doneState [.engine]) = .next t) ∧
    (∀ w, (doneState [w32 0x00 w]).nextAccess = some ⟨.write (.b4 w), 0x00#18⟩) ∧
    ∃ t, step (State.setInLen 49 (doneState [w32 0x00 1])) = .next t ∧ t.state = .error :=
  ⟨⟨rfl, _, rfl⟩, ⟨rfl, by decide, _, rfl⟩, ⟨rfl, rfl, _, rfl⟩, fun _ => rfl, _, rfl, rfl⟩

/-- A step that changes IN_MEM, one that changes OUT_MEM, one that changes IN_LEN, one that changes IE. -/
theorem witness_EachPieceOfStateHasItsOwnWriters :
    (∃ t, step (loaded [] [w32 0x10000 0x41414141]) = .next t ∧ t.inMem ≠ []) ∧
    (∃ t, step (busyState []) = .next t ∧ t.outMem ≠ []) ∧
    (∃ t, step (loaded [] [w32 0x08 7]) = .next t ∧ t.inLen ≠ 0) ∧
    ∃ t, step (loaded [] [w32 0x14 1]) = .next t ∧ t.ie ≠ false :=
  ⟨⟨_, rfl, by decide⟩, ⟨_, rfl, by decide⟩, ⟨_, rfl, by decide⟩, ⟨_, rfl, by decide⟩⟩

/-- The invariant holds in every STATE the vectors use, and each takes a step. -/
theorem witness_EveryStepKeepsTheInvariant :
    (∀ s ∈ [loaded [0x4D] [], busyState [], doneState [], errorState []], s.inv = true) ∧
      ∃ t, step (busyState []) = .next t := ⟨by decide +kernel, _, rfl⟩

/-- A safe turn, an unsafe command and an unsafe READ. -/
theorem witness_OnlyUnwrittenBytesStopTheMachine :
    (busyState []).inv = true ∧ (busyState []).safe = true ∧
      (State.setInLen 1 (loaded [] [w32 0x00 1])).inv = true ∧ (State.setInLen 1 (loaded [] [w32 0x00 1])).safe = false ∧
      (loaded [] [.host ⟨.read .w1, 0x10000#18⟩]).inv = true ∧ (loaded [] [.host ⟨.read .w1, 0x10000#18⟩]).safe = false := by
  decide

theorem witness_PendingOperationsComplete :
    (busyState []).inv = true ∧ (busyState []).state = .busy ∧
      ∃ t, Host.Core.run Sys2Proof.core ((busyState []).events.length + 1) (busyState []) = .next t :=
  ⟨by decide, by decide, _, rfl⟩

/-- ENCODE of [4D] gives "TQ==" (X3), which stands in IN_MEM of the second state. -/
theorem witness_MachineRoundTripGivesTheBytesBack :
    (loaded [0x4D] []).params.wf = true ∧ (loaded [0x4D] []).state ≠ .busy ∧
    Memory.readBytes (loaded [0x4D] []).inMem 0 (loaded [0x4D] []).inLen.toNat = some [0x4D] ∧
    ∃ t u, exec .encode (loaded [0x4D] []) = .next t ∧ turn .engine t = .next u ∧
      (loaded [0x54, 0x51, 0x3D, 0x3D] []).state ≠ .busy ∧ (loaded [0x54, 0x51, 0x3D, 0x3D] []).inLen = u.outLen ∧
      u.outLen.toNat ≤ (loaded [0x54, 0x51, 0x3D, 0x3D] []).params.inCap ∧
      ∀ j < u.outLen.toNat, Memory.read (loaded [0x54, 0x51, 0x3D, 0x3D] []).inMem j = Memory.read u.outMem j :=
  ⟨by decide, by decide, by decide, _, _, rfl, rfl, by decide, by decide, by decide, by decide⟩

theorem witness_PseudoInstructionsExpandToTheListedAccesses :
    [(0x5A : Byte), 0x6D][1]? = some 0x6D ∧
      (expand (.loadb 0 [0x5A, 0x6D]))[1]? = some (.write 0x10001#18 (.b1 0x6D)) := by decide

/-- R139(c) on "foo": the text "Zm9v" fits in IN_MEM. -/
theorem witness_EncodeHasItsListedProperties :
    (loaded [0x66, 0x6F, 0x6F] []).params.wf = true ∧ (loaded [0x66, 0x6F, 0x6F] []).state ≠ .busy ∧
      (loaded [0x66, 0x6F, 0x6F] []).inLen.toNat ≤ (loaded [0x66, 0x6F, 0x6F] []).params.inCap ∧
      Memory.readBytes (loaded [0x66, 0x6F, 0x6F] []).inMem 0 (loaded [0x66, 0x6F, 0x6F] []).inLen.toNat =
        some [0x66, 0x6F, 0x6F] ∧
      ∃ u, runOperation .encode (loaded [0x66, 0x6F, 0x6F] []) = .next u ∧ u.outLen.toNat ≤ u.params.inCap :=
  ⟨by decide, by decide, by decide, by decide, _, rfl, by decide⟩

/-- P4: after the round trip of "foobar", OUT[6..7] still hold the ENCODE's last bytes `F` and `y`. -/
theorem test_roundTrip_foobar :
    (roundTrip (loaded [0x66, 0x6F, 0x6F, 0x62, 0x61, 0x72] [])).bind (fun y => Memory.readBytes y.outMem 0 8) =
      some [0x66, 0x6F, 0x6F, 0x62, 0x61, 0x72, 0x46, 0x79] := by decide

end Sys2Proof.Tests
end

section
/-! PROOFS. Reset and the interrupt output (10_state.md R33, R41; 60_exceptions.md R230): the outputs of a state as propositions, what
the host reads after a reset, and the obligations on both. -/

namespace Sys2Proof.Machine

/-! ### The interrupt output -/

theorem State.irq_iff (s : State) : s.irq = true ↔ s.ie = true ∧ (s.state = .done ∨ s.state = .error) := by
  simp [State.irq]

theorem State.irqOnLine_iff (s : State) (line : Nat) :
    s.irqOnLine line = true ↔ line = s.params.irqLine ∧ s.irq = true := by
  simp [State.irqOnLine]

/-- Settles O44: IE gates the two STATEs that call for the host, and the platform's line carries that level. -/
theorem interruptIsALevelOfTheState : Obligations.InterruptIsALevelOfTheState :=
  fun s => ⟨s.irq_iff, s.irqOnLine_iff⟩

/-! ### What a reset leaves to be read -/

@[simp] theorem State.resetWith_irq (p : Params) (es : List Event) : (State.resetWith p es).irq = false := rfl

@[simp] theorem State.resetWith_statusWord (p : Params) (es : List Event) : (State.resetWith p es).statusWord = 0#32 := by
  simp [State.statusWord, ErrCode.code, EngineState.code]

@[simp] theorem State.resetWith_irqEnWord (p : Params) (es : List Event) : (State.resetWith p es).irqEnWord = 0#32 := by
  simp [State.irqEnWord]

/-- Settles O42: `State.reset` is `State.resetWith` at the platform's parameters, so each row of R41's table is a law of
`State.resetWith`, and an empty buffer holds no written byte. -/
theorem resetLeavesTheListedValues : Obligations.ResetLeavesTheListedValues :=
  ⟨State.resetWith_state .., State.resetWith_err .., State.resetWith_errInfo .., State.resetWith_inLen ..,
    State.resetWith_outLen .., State.resetWith_ie .., State.resetWith_pending .., State.resetWith_irq ..,
    Memory.read_nil, Memory.read_nil, State.resetWith_statusWord .., State.resetWith_irqEnWord ..⟩

end Sys2Proof.Machine
end

section
/-! PROOFS. The command decoder on the three assigned words and on every other word (30_encoding.md R91, R93), and the obligation
on both. -/

namespace Sys2Proof

@[simp] theorem decodeCmd_encode (i : Instr) : decodeCmd (encode i) = .command i := by
  cases i with
  | encode => rfl
  | decode => rfl
  | ack => rfl

theorem decodeCmd_eq_illegal_of_ne {w : Word} (hEncode : w ≠ 0x00000001#32) (hDecode : w ≠ 0x00000002#32)
    (hAck : w ≠ 0x00000003#32) : decodeCmd w = .illegal := by
  rw [decodeCmd, if_neg hEncode, if_neg hDecode, if_neg hAck]

/-- Settles O1: the words 1, 2 and 3 are the encodings of the three commands, and a word that is none of them fails every
test of the decoder's chain. -/
theorem commandDecoderReadsExactlyThreeWords : Obligations.CommandDecoderReadsExactlyThreeWords :=
  ⟨decodeCmd_encode .encode, decodeCmd_encode .decode, decodeCmd_encode .ack, fun _ => decodeCmd_eq_illegal_of_ne⟩

end Sys2Proof
end

section
/-! PROOFS. The alphabet's two lookup tables as one relation (40_alphabet.md R110-R114): each table is an equivalence with the rows of
the alphabet, so the tables invert each other, and the obligations on both. -/

namespace Sys2Proof.Machine

/-! ### The rows of the alphabet -/

/-- R110's order with the codes of R111: `c` is the code of the symbol of value `v`. The five rows are `A`-`Z`, `a`-`z`, `0`-`9`, `+`
and `/`. -/
def AlphabetRow (c : Byte) (v : Sextet) : Prop :=
  (v.toNat ≤ 25 ∧ c.toNat = 65 + v.toNat) ∨
  (26 ≤ v.toNat ∧ v.toNat ≤ 51 ∧ c.toNat = 71 + v.toNat) ∨
  (52 ≤ v.toNat ∧ v.toNat ≤ 61 ∧ c.toNat + 4 = v.toNat) ∨
  (v.toNat = 62 ∧ c.toNat = 0x2B) ∨
  (v.toNat = 63 ∧ c.toNat = 0x2F)

theorem symbolFor_eq_iff_alphabetRow {v : Sextet} {c : Byte} : symbolFor v = c ↔ AlphabetRow c v := by
  unfold symbolFor AlphabetRow
  split_ifs <;> bv_omega

theorem valueFor_eq_some_iff_alphabetRow {c : Byte} {v : Sextet} : valueFor c = some v ↔ AlphabetRow c v := by
  unfold valueFor AlphabetRow
  split_ifs <;> simp only [Option.some.injEq, false_iff] <;> bv_omega

/-- R114: the two tables hold the same rows. -/
theorem valueFor_eq_some_iff {c : Byte} {v : Sextet} : valueFor c = some v ↔ symbolFor v = c :=
  valueFor_eq_some_iff_alphabetRow.trans symbolFor_eq_iff_alphabetRow.symm

@[simp] theorem valueFor_symbolFor (v : Sextet) : valueFor (symbolFor v) = some v := valueFor_eq_some_iff.2 rfl

theorem symbolFor_injective : Function.Injective symbolFor := fun v v' h =>
  Option.some_injective _ <| calc
    some v = valueFor (symbolFor v) := (valueFor_symbolFor v).symm
    _ = valueFor (symbolFor v') := by rw [h]
    _ = some v' := valueFor_symbolFor v'

theorem isAlpha_iff_exists_symbolFor {c : Byte} : isAlpha c = true ↔ ∃ v, symbolFor v = c := by
  simp only [isAlpha, Option.isSome_iff_exists, valueFor_eq_some_iff]

/-- Settles O7: `valueFor` reads a row of the alphabet backwards exactly where `symbolFor` reads it forwards, so each table inverts the
other, and the codes with a value are the codes of symbols. -/
theorem alphabetTablesAreInverse : Obligations.AlphabetTablesAreInverse :=
  ⟨valueFor_symbolFor, fun _ _ => valueFor_eq_some_iff.1, fun _ _ h => symbolFor_injective h,
    fun _ => isAlpha_iff_exists_symbolFor.symm⟩

/-! ### The alphabet codes -/

/-- R113's codes: `+`, `/`, `0`-`9`, `A`-`Z` and `a`-`z`. -/
def IsAlphabetCode (n : Nat) : Prop :=
  n = 0x2B ∨ n = 0x2F ∨ (0x30 ≤ n ∧ n ≤ 0x39) ∨ (0x41 ≤ n ∧ n ≤ 0x5A) ∨ (0x61 ≤ n ∧ n ≤ 0x7A)

/-- Each of R112's tests passes on one of R113's ranges, and a code outside all five has no value. -/
theorem isAlpha_iff_isAlphabetCode {c : Byte} : isAlpha c = true ↔ IsAlphabetCode c.toNat := by
  unfold isAlpha valueFor IsAlphabetCode
  split_ifs <;> simp only [Option.isSome_some, Option.isSome_none, Bool.false_eq_true, true_iff, false_iff] <;> omega

theorem isAlpha_iff_valueFor_ne_none {c : Byte} : isAlpha c = true ↔ valueFor c ≠ none := Option.isSome_iff_ne_none

/-- Settles O8: membership is having a value, the values stand at R113's codes, and counting them over all bytes gives 64. -/
theorem alphabetIsExactlyTheSixtyFourCodes : Obligations.AlphabetIsExactlyTheSixtyFourCodes :=
  ⟨fun _ => isAlpha_iff_valueFor_ne_none, fun _ => isAlpha_iff_isAlphabetCode, by decide⟩

end Sys2Proof.Machine
end

section
/-! PROOFS. Bit streams (00_scope.md R7): words of any width as streams, what `val` reads back, and which streams sextets spell. -/

namespace Sys2Proof.Machine

/-! ### Words as streams -/

/-- The bits of a word of any width, the most significant first: `bits8` and `bits6` are the widths R7 names. -/
def msbFirst {w : Nat} (x : BitVec w) : List Bool := (List.range w).map fun k => x.getLsbD (w - 1 - k)

theorem msbFirst_append {n m : Nat} (x : BitVec n) (y : BitVec m) : msbFirst (x ++ y) = msbFirst x ++ msbFirst y := by
  unfold msbFirst
  rw [List.range_add, List.map_append, List.map_map]
  congr 1
  · refine List.map_congr_left fun k hk => ?_
    have hk := List.mem_range.1 hk
    rw [BitVec.getLsbD_append, if_neg (by omega)]
    congr 1
    omega
  · refine List.map_congr_left fun k hk => ?_
    have hk := List.mem_range.1 hk
    have h1 : n + m - 1 - (n + k) = m - 1 - k := by omega
    simp only [Function.comp]
    rw [BitVec.getLsbD_append, h1, if_pos (by omega)]

/-- The high `n` bits of a word come before its low `m` bits. -/
theorem msbFirst_split {w n m : Nat} (h : w = n + m) (x : BitVec w) :
    msbFirst x = msbFirst (x.extractLsb' m n) ++ msbFirst (x.extractLsb' 0 m) := by
  subst h
  rw [← msbFirst_append, BitVec.extractLsb'_append_extractLsb'_eq_extractLsb' (by omega), BitVec.extractLsb'_eq_self]

theorem msbFirst_zero (w : Nat) : msbFirst 0#w = List.replicate w false := by simp [msbFirst]

theorem bits6_append_two_four (x : BitVec 2) (y : BitVec 4) : bits6 (x ++ y) = msbFirst x ++ msbFirst y :=
  msbFirst_append x y

theorem bits6_append_four_two (x : BitVec 4) (y : BitVec 2) : bits6 (x ++ y) = msbFirst x ++ msbFirst y :=
  msbFirst_append x y

/-! ### A byte cut where a sextet ends: after two, four or six bits -/

theorem bits8_six_two (b : Byte) : bits8 b = bits6 (b.extractLsb' 2 6) ++ msbFirst (b.extractLsb' 0 2) :=
  msbFirst_split (n := 6) (m := 2) rfl b

theorem bits8_four_four (b : Byte) : bits8 b = msbFirst (b.extractLsb' 4 4) ++ msbFirst (b.extractLsb' 0 4) :=
  msbFirst_split (n := 4) (m := 4) rfl b

theorem bits8_two_six (b : Byte) : bits8 b = msbFirst (b.extractLsb' 6 2) ++ bits6 (b.extractLsb' 0 6) :=
  msbFirst_split (n := 2) (m := 6) rfl b

/-! ### `val` and sub-streams -/

/-- `val` numbers its bits from the last one (00_scope.md R7). -/
theorem testBit_bitsVal (s : List Bool) (k : Nat) : (bitsVal s).testBit k = s.reverse.getD k false := by
  induction s with
  | nil => simp [bitsVal]
  | cons b s ih =>
    rw [bitsVal, Nat.mul_comm, Nat.testBit_two_pow_mul_add _ (bitsVal_lt s), ih, List.reverse_cons]
    split
    · next hk => rw [List.getD_append _ _ _ _ (by simpa using hk)]
    · next hk =>
      rw [List.getD_append_right _ _ _ _ (by simpa using hk), List.length_reverse]
      cases k - s.length with
      | zero => cases b <;> rfl
      | succ n => cases b <;> simp [Nat.testBit_succ]

/-- `val` reads back a word from its bits, the most significant first. -/
theorem ofNat_bitsVal_msbFirst {w : Nat} (x : BitVec w) : BitVec.ofNat w (bitsVal (msbFirst x)) = x := by
  refine BitVec.eq_of_getLsbD_eq fun i hi => ?_
  have hrev : w - 1 - (w - 1 - i) = i := by omega
  rw [BitVec.getLsbD_ofNat, testBit_bitsVal]
  simp [msbFirst, List.getD_eq_getElem?_getD, hi, hrev]

@[simp] theorem ofNat_bitsVal_bits8 (b : Byte) : BitVec.ofNat 8 (bitsVal (bits8 b)) = b := ofNat_bitsVal_msbFirst b

@[simp] theorem ofNat_bitsVal_bits6 (v : Sextet) : BitVec.ofNat 6 (bitsVal (bits6 v)) = v := ofNat_bitsVal_msbFirst v

/-- Where every element spells `w` bits, the `j`-th run of `w` bits is what the `j`-th element spells. -/
theorem slice_flatMap {α : Type} {f : α → List Bool} {w : Nat} (hf : ∀ x, (f x).length = w) (xs : List α) (j : Nat)
    (hj : j < xs.length) : slice (xs.flatMap f) (w * j) w = f xs[j] := by
  induction xs generalizing j with
  | nil => simp at hj
  | cons x xs ih =>
    rw [List.flatMap_cons]
    cases j with
    | zero => rw [slice_append_left _ _ _ _ (by simp [hf]), slice]; simp [← hf x]
    | succ j =>
      have hw : w * (j + 1) = (f x).length + w * j := by rw [hf x, Nat.mul_succ, Nat.add_comm]
      rw [hw, slice_append_right, ih j (by simpa using hj), List.getElem_cons_succ]

/-- Six bits are spelt by one sextet. -/
theorem exists_bits6_eq (a b c d e f : Bool) : ∃ v, bits6 v = [a, b, c, d, e, f] := by
  refine ⟨BitVec.ofBoolListLE [f, e, d, c, b, a], ?_⟩
  revert a b c d e f
  decide

/-- A stream of `6k` bits is spelt by `k` sextets. -/
theorem exists_flatMap_bits6_eq (k : Nat) (s : List Bool) (h : s.length = 6 * k) :
    ∃ vs : List Sextet, vs.flatMap bits6 = s := by
  induction k generalizing s with
  | zero => exact ⟨[], (List.length_eq_zero_iff.1 h).symm⟩
  | succ k ih =>
    match s, h with
    | a :: b :: c :: d :: e :: f :: s, h =>
      obtain ⟨v, hv⟩ := exists_bits6_eq a b c d e f
      obtain ⟨vs, hvs⟩ := ih s (by simp only [List.length_cons] at h; omega)
      exact ⟨v :: vs, by rw [List.flatMap_cons, hv, hvs]; rfl⟩

end Sys2Proof.Machine
end

section
/-! PROOFS. The encoder (41_encoder.md R131-R134): the symbols of an input are those of the sextets that spell its
value-padded stream, and the obligations on the closed form and the padding. -/

namespace Sys2Proof.Machine

/-! ### The sextets of an encoding -/

/-- The value-padded stream of every input is spelt by sextets (41_encoder.md R131 step 2). -/
theorem exists_sextets (B : List Byte) : ∃ vs : List Sextet, vs.flatMap bits6 = paddedStream B :=
  exists_flatMap_bits6_eq _ _ (paddedStream_length B)

theorem sextets_length {B : List Byte} {vs : List Sextet} (h : vs.flatMap bits6 = paddedStream B) :
    vs.length = sextetCount B.length := by
  have hl := congrArg List.length h
  rw [flatMap_bits6_length, paddedStream_length] at hl
  omega

/-- Whichever sextets spell the value-padded stream, the symbols of the input are theirs. -/
theorem encodeSymbols_eq_map {B : List Byte} {vs : List Sextet} (h : vs.flatMap bits6 = paddedStream B) :
    encodeSymbols B = vs.map symbolFor := by
  refine List.ext_getElem (by simp [encodeSymbols, sextets_length h]) fun g h1 h2 => ?_
  rw [List.length_map] at h2
  simp [encodeSymbols, ← h, slice_flatMap bits6_length vs g h2]

/-! ### The symbols of a group of three bytes -/

/-- The four sextets of a full group (41_encoder.md R134). -/
def groupSextets (b0 b1 b2 : Byte) : List Sextet :=
  [b0.extractLsb' 2 6, b0.extractLsb' 0 2 ++ b1.extractLsb' 4 4, b1.extractLsb' 0 4 ++ b2.extractLsb' 6 2, b2.extractLsb' 0 6]

theorem encodeGroups_group (b0 b1 b2 : Byte) (rest : List Byte) :
    encodeGroups (b0 :: b1 :: b2 :: rest) = (groupSextets b0 b1 b2).map symbolFor ++ encodeGroups rest := rfl

/-- A full group's four sextets spell its three bytes. -/
theorem flatMap_bits6_groupSextets (b0 b1 b2 : Byte) :
    (groupSextets b0 b1 b2).flatMap bits6 = bits8 b0 ++ bits8 b1 ++ bits8 b2 := by
  rw [bits8_six_two b0, bits8_four_four b1, bits8_two_six b2]
  simp [groupSextets, bits6_append_two_four, bits6_append_four_two]

theorem paddedStream_group (b0 b1 b2 : Byte) (rest : List Byte) :
    paddedStream (b0 :: b1 :: b2 :: rest) = bits8 b0 ++ bits8 b1 ++ bits8 b2 ++ paddedStream rest := by
  have hpad : 6 * sextetCount (rest.length + 3) - 8 * (rest.length + 3) =
      6 * sextetCount rest.length - 8 * rest.length := by
    unfold sextetCount ceilDiv; omega
  simp [paddedStream, hpad]

theorem encodeSymbols_group (b0 b1 b2 : Byte) (rest : List Byte) :
    encodeSymbols (b0 :: b1 :: b2 :: rest) = (groupSextets b0 b1 b2).map symbolFor ++ encodeSymbols rest := by
  obtain ⟨vs, hvs⟩ := exists_sextets rest
  rw [encodeSymbols_eq_map hvs, ← List.map_append]
  refine encodeSymbols_eq_map ?_
  rw [List.flatMap_append, flatMap_bits6_groupSextets, hvs, paddedStream_group]

theorem encodeSymbols_one (b0 : Byte) :
    encodeSymbols [b0] = [symbolFor (b0.extractLsb' 2 6), symbolFor (b0.extractLsb' 0 2 ++ 0#4)] := by
  refine encodeSymbols_eq_map (vs := [_, _]) ?_
  simp [paddedStream, sextetCount, ceilDiv, bits8_six_two b0, bits6_append_two_four, msbFirst_zero]

theorem encodeSymbols_two (b0 b1 : Byte) :
    encodeSymbols [b0, b1] =
      [symbolFor (b0.extractLsb' 2 6), symbolFor (b0.extractLsb' 0 2 ++ b1.extractLsb' 4 4),
        symbolFor (b1.extractLsb' 0 4 ++ 0#2)] := by
  refine encodeSymbols_eq_map (vs := [_, _, _]) ?_
  simp [paddedStream, sextetCount, ceilDiv, bits8_six_two b0, bits8_four_four b1, bits6_append_two_four,
    bits6_append_four_two, msbFirst_zero]

/-! ### Symbol padding -/

@[simp] theorem encodeSymbols_length (B : List Byte) : (encodeSymbols B).length = sextetCount B.length := by
  simp [encodeSymbols]

/-- A whole group of four symbols leaves the symbol padding as it is. -/
@[simp] theorem padCount_add_four (q : Nat) : padCount (q + 4) = padCount q := by simp [padCount]

/-- Four symbols for every three bytes, the last group filled up with PAD. -/
theorem encodeBytes_length (B : List Byte) : (encodeBytes B).length = encodedLength B.length := by
  rw [encodeBytes, List.length_append, List.length_replicate, encodeSymbols_length]
  unfold padCount sextetCount ceilDiv encodedLength
  omega

theorem encodeBytes_group (b0 b1 b2 : Byte) (rest : List Byte) :
    encodeBytes (b0 :: b1 :: b2 :: rest) = (groupSextets b0 b1 b2).map symbolFor ++ encodeBytes rest := by
  have hq : sextetCount (b0 :: b1 :: b2 :: rest).length = sextetCount rest.length + 4 := by
    simp only [List.length_cons, sextetCount, ceilDiv]; omega
  simp only [encodeBytes, encodeSymbols_group, hq, padCount_add_four, List.append_assoc]

/-- Settles O11: by groups of three bytes; each group's sextets spell its bits of the value-padded stream. -/
theorem encoderClosedFormIsTheEncoding : Obligations.EncoderClosedFormIsTheEncoding := by
  intro B
  induction B using encodeGroups.induct with
  | case1 => rfl
  | case2 b0 => rw [encodeGroups, encodeBytes, encodeSymbols_one]; simp [padCount, sextetCount, ceilDiv, List.replicate_succ]
  | case3 b0 b1 => rw [encodeGroups, encodeBytes, encodeSymbols_two]; simp [padCount, sextetCount, ceilDiv]
  | case4 b0 b1 b2 rest ih => rw [encodeGroups_group, encodeBytes_group, ih]

theorem isAlpha_of_mem_encodeSymbols {B : List Byte} {c : Byte} (h : c ∈ encodeSymbols B) : isAlpha c = true := by
  obtain ⟨vs, hvs⟩ := exists_sextets B
  rw [encodeSymbols_eq_map hvs, List.mem_map] at h
  obtain ⟨v, -, hv⟩ := h
  exact isAlpha_iff_exists_symbolFor.2 ⟨v, hv⟩

theorem ne_PAD_of_isAlpha {c : Byte} (h : isAlpha c = true) : c ≠ PAD := by
  rintro rfl
  exact absurd h (by decide)

theorem ne_NL_of_isAlpha {c : Byte} (h : isAlpha c = true) : c ≠ NL := by
  rintro rfl
  exact absurd h (by decide)

/-- Settles O10: the symbols are codes of the alphabet, which PAD is not, and each row of R133's table is arithmetic on
`q = ceil(8n/6)`. -/
theorem symbolPaddingFollowsTheLength : Obligations.SymbolPaddingFollowsTheLength := by
  intro B
  have hq : (encodeSymbols B).length = (8 * B.length + 5) / 6 := encodeSymbols_length B
  have hE : encodeBytes B = encodeSymbols B ++ List.replicate ((4 - (encodeSymbols B).length % 4) % 4) PAD := by
    rw [encodeSymbols_length]; rfl
  have hA := fun c => isAlpha_of_mem_encodeSymbols (B := B) (c := c)
  refine ⟨encodeSymbols B, hE, hq, hA, fun c hc => ne_PAD_of_isAlpha (hA c hc), fun hn => ?_, fun hn => ?_, fun hn => ?_⟩
  · have hp : (4 - (encodeSymbols B).length % 4) % 4 = 0 := by omega
    exact ⟨by omega, by omega, by rw [hE, hp]; simp⟩
  · have hp : (4 - (encodeSymbols B).length % 4) % 4 = 2 := by omega
    exact ⟨by omega, by omega, by rw [hE, hp]; rfl⟩
  · have hp : (4 - (encodeSymbols B).length % 4) % 4 = 1 := by omega
    exact ⟨by omega, by omega, by rw [hE, hp]; rfl⟩

end Sys2Proof.Machine
end

section
/-! PROOFS. The encoder's datapath (41_encoder.md R138): it runs R134's closed form, its accumulator being the bits of a
group that wait for the next byte, and the obligation on its result and its registers. -/

namespace Sys2Proof.Machine

/-! ### One byte, by what waits in the accumulator -/

theorem toNat_append_eq {n m : Nat} (x : BitVec n) (y : BitVec m) : (x ++ y).toNat = x.toNat * 2 ^ m + y.toNat := by
  rw [BitVec.toNat_append, ← Nat.shiftLeft_add_eq_or_of_lt y.isLt, Nat.shiftLeft_eq]

theorem encByte_of_empty (out : List Byte) (b : Byte) :
    encByte ⟨0, 0, out⟩ b = ⟨(b.extractLsb' 0 2).toNat, 2, out ++ [symbolFor (b.extractLsb' 2 6)]⟩ := by
  have hv : BitVec.ofNat 6 (b.toNat / 4) = b.extractLsb' 2 6 :=
    BitVec.eq_of_toNat_eq (by simp [Nat.shiftRight_eq_div_pow])
  simp [encByte, encDrain, encEmit, hv]

theorem encByte_of_two (x : BitVec 2) (out : List Byte) (b : Byte) :
    encByte ⟨x.toNat, 2, out⟩ b =
      ⟨(b.extractLsb' 0 4).toNat, 4, out ++ [symbolFor (x ++ b.extractLsb' 4 4)]⟩ := by
  have hv : BitVec.ofNat 6 ((x.toNat * 256 + b.toNat) / 16) = x ++ b.extractLsb' 4 4 :=
    BitVec.eq_of_toNat_eq (.trans (by simp [Nat.shiftRight_eq_div_pow]; omega) (toNat_append_eq ..).symm)
  simp [encByte, encDrain, encEmit, hv]
  omega

theorem encByte_of_four (x : BitVec 4) (out : List Byte) (b : Byte) :
    encByte ⟨x.toNat, 4, out⟩ b =
      ⟨0, 0, out ++ [symbolFor (x ++ b.extractLsb' 6 2), symbolFor (b.extractLsb' 0 6)]⟩ := by
  have hv : BitVec.ofNat 6 ((x.toNat * 256 + b.toNat) / 64) = x ++ b.extractLsb' 6 2 :=
    BitVec.eq_of_toNat_eq (.trans (by simp [Nat.shiftRight_eq_div_pow]; omega) (toNat_append_eq ..).symm)
  have hw : BitVec.ofNat 6 ((x.toNat * 256 + b.toNat) % 64) = b.extractLsb' 0 6 :=
    BitVec.eq_of_toNat_eq (by simp; omega)
  simp [encByte, encDrain, encEmit, hv, hw, Nat.mod_one]

/-! ### After the last byte: what waits is value-padded, and PAD follows it -/

theorem encFinish_of_empty {out : List Byte} (h : out.length % 4 = 0) : encFinish ⟨0, 0, out⟩ = out := by
  simp [encFinish, padCount, h]

theorem encFinish_of_two {out : List Byte} (x : BitVec 2) (h : out.length % 4 = 1) :
    encFinish ⟨x.toNat, 2, out⟩ = out ++ [symbolFor (x ++ 0#4), PAD, PAD] := by
  have hv : BitVec.ofNat 6 (x.toNat * 16) = x ++ 0#4 :=
    BitVec.eq_of_toNat_eq (.trans (by simp; omega) (toNat_append_eq ..).symm)
  have hp : padCount (out.length + 1) = 2 := by unfold padCount; omega
  simp [encFinish, hv, hp, List.replicate_succ]

theorem encFinish_of_four {out : List Byte} (x : BitVec 4) (h : out.length % 4 = 2) :
    encFinish ⟨x.toNat, 4, out⟩ = out ++ [symbolFor (x ++ 0#2), PAD] := by
  have hv : BitVec.ofNat 6 (x.toNat * 4) = x ++ 0#2 :=
    BitVec.eq_of_toNat_eq (.trans (by simp; omega) (toNat_append_eq ..).symm)
  have hp : padCount (out.length + 1) = 1 := by unfold padCount; omega
  simp [encFinish, hv, hp]

/-- From an empty accumulator after whole groups, the datapath appends the closed form of the rest of the input. -/
theorem encFinish_foldl_encByte (B out : List Byte) (h : out.length % 4 = 0) :
    encFinish (B.foldl encByte ⟨0, 0, out⟩) = out ++ encodeGroups B := by
  induction B using encodeGroups.induct generalizing out with
  | case1 => simp [encFinish_of_empty h, encodeGroups]
  | case2 b0 =>
    rw [List.foldl_cons, List.foldl_nil, encByte_of_empty, encFinish_of_two _ (by simp; omega)]
    simp [encodeGroups]
  | case3 b0 b1 =>
    rw [List.foldl_cons, List.foldl_cons, List.foldl_nil, encByte_of_empty, encByte_of_two,
      encFinish_of_four _ (by simp; omega)]
    simp [encodeGroups]
  | case4 b0 b1 b2 rest ih =>
    rw [List.foldl_cons, List.foldl_cons, List.foldl_cons, encByte_of_empty, encByte_of_two, encByte_of_four,
      ih _ (by simp; omega)]
    simp [encodeGroups_group, groupSextets]

theorem encodeAccumulator_eq_encodeGroups (B : List Byte) : encodeAccumulator B = encodeGroups B := by
  rw [encodeAccumulator, encFinish_foldl_encByte B [] rfl, List.nil_append]

/-! ### The datapath's registers -/

/-- The accumulator holds no more than the bits that `nb` counts. -/
def EncAcc.Fits (r : EncAcc) : Prop := r.acc < 2 ^ r.nb

theorem encEmit_fits (r : EncAcc) : (encEmit r).Fits := Nat.mod_lt _ (Nat.two_pow_pos _)

/-- Two rounds of the inner loop leave fewer than six bits. -/
theorem encDrain_registers {r : EncAcc} (hr : r.Fits) (hnb : r.nb ≤ 17) : (encDrain r).Fits ∧ (encDrain r).nb ≤ 5 := by
  have hemit : (encEmit r).nb = r.nb - 6 := rfl
  have hemit2 : (encEmit (encEmit r)).nb = r.nb - 6 - 6 := rfl
  simp only [encDrain]
  split_ifs
  · exact ⟨encEmit_fits _, by omega⟩
  · exact ⟨encEmit_fits _, by omega⟩
  · exact ⟨hr, by omega⟩

theorem shift_byte_lt {acc nb : Nat} (h : acc < 2 ^ nb) (b : Byte) : acc * 256 + b.toNat < 2 ^ (nb + 8) := by
  rw [Nat.pow_add]; omega

/-- What R138's loop keeps: at every byte of an input at most five bits wait in the accumulator. -/
theorem foldl_encByte_registers (B : List Byte) (r : EncAcc) (hr : r.Fits) (hnb : r.nb ≤ 5) :
    (B.foldl encByte r).Fits ∧ (B.foldl encByte r).nb ≤ 5 := by
  induction B generalizing r with
  | nil => exact ⟨hr, hnb⟩
  | cons b B ih =>
    obtain ⟨hf, hn⟩ := encDrain_registers (r := ⟨r.acc * 256 + b.toNat, r.nb + 8, r.out⟩) (shift_byte_lt hr b)
      (show r.nb + 8 ≤ 17 by omega)
    exact ih (encByte r b) hf hn

/-- Settles O12: the datapath runs the closed form group by group, and with at most five bits waiting the next byte makes at most
13. -/
theorem encoderDatapathRefinesTheEncoding : Obligations.EncoderDatapathRefinesTheEncoding := by
  refine ⟨fun B => (encodeAccumulator_eq_encodeGroups B).trans (encoderClosedFormIsTheEncoding B), fun B b => ?_⟩
  obtain ⟨hf, hnb⟩ := foldl_encByte_registers B ⟨0, 0, []⟩ Nat.one_pos (Nat.zero_le 5)
  exact ⟨Nat.add_le_add_right hnb 8,
    (shift_byte_lt hf b).trans_le (Nat.pow_le_pow_right Nat.two_pos (by omega))⟩

end Sys2Proof.Machine
end

section
/-! PROOFS. An encoding as a raw text: the validator passes it and the decoder gives the bytes back (42_validator.md
R157, 43_decoder.md R189). -/

namespace Sys2Proof.Machine

@[simp] theorem symbolValues_map_symbolFor (vs : List Sextet) : symbolValues (vs.map symbolFor) = some vs := by
  induction vs with
  | nil => rfl
  | cons v vs ih => simp [symbolValues, ih]

/-- Regrouping discards exactly the value padding. -/
theorem regroup_of_sextets {B : List Byte} {vs : List Sextet} (h : vs.flatMap bits6 = paddedStream B) : regroup vs = B := by
  have hlen : 6 * vs.length / 8 = B.length := by
    rw [sextets_length h, sextetCount, ceilDiv]; omega
  refine List.ext_getElem (by rw [regroup_length, hlen]) fun j h1 h2 => ?_
  have hj : slice (vs.flatMap bits6) (8 * j) 8 = bits8 B[j] := by
    rw [h, paddedStream, slice_append_left _ _ _ _ (by rw [flatMap_bits8_length]; omega),
      slice_flatMap bits8_length B j h2]
  simp [regroup, hj]

/-- 43_decoder.md R189: the decode phase undoes the encoder. -/
theorem decodeSymbols_encodeSymbols (B : List Byte) : decodeSymbols (encodeSymbols B) = some B := by
  obtain ⟨vs, hvs⟩ := exists_sextets B
  simp [encodeSymbols_eq_map hvs, decodeSymbols, regroup_of_sextets hvs]

theorem stripNL_encodeBytes (B : List Byte) : stripNL (encodeBytes B) = encodeBytes B := by
  refine List.filter_eq_self.2 fun c hc => bne_iff_ne.2 ?_
  rcases List.mem_append.1 hc with hc | hc
  · exact ne_NL_of_isAlpha (isAlpha_of_mem_encodeSymbols hc)
  · rw [List.eq_of_mem_replicate hc]; decide

theorem stripPAD_encodeBytes (B : List Byte) : stripPAD (encodeBytes B) = encodeSymbols B := by
  have hS : stripPAD (encodeSymbols B) = encodeSymbols B :=
    List.filter_eq_self.2 fun c hc => bne_iff_ne.2 (ne_PAD_of_isAlpha (isAlpha_of_mem_encodeSymbols hc))
  rw [stripPAD] at hS
  simp [stripPAD, encodeBytes, hS]

/-- An encoding passes the validator, which leaves its symbols (42_validator.md R157). -/
theorem validate_encodeBytes (B : List Byte) : validate (encodeBytes B) = .ok (encodeSymbols B) := by
  have hlen : (encodeBytes B).length % 4 = 0 := by rw [encodeBytes_length, encodedLength]; omega
  have hA : firstInvalid (encodeSymbols B) = none :=
    List.find?_eq_none.2 fun c hc => by simp [isAlpha_of_mem_encodeSymbols hc]
  simp [validate, stripNL_encodeBytes, stripPAD_encodeBytes, hlen, hA]

/-- The whole DECODE of an encoding stores the bytes it encodes. -/
theorem decodeText_encodeBytes (B : List Byte) (s : State) :
    decodeText (encodeBytes B) s = State.complete B.length (State.storeOut B s) := by
  simp [decodeText, validate_encodeBytes, decodePhase, decodeSymbols_encodeSymbols]

end Sys2Proof.Machine
end

section
/-! PROOFS. ENCODE and the round trip through the machine (41_encoder.md R139), and the obligation on them. -/

namespace Sys2Proof.Machine

theorem readBytes_complete_storeOut (L : List Byte) (s : State) :
    Memory.readBytes (State.complete L.length (State.storeOut L s)).outMem 0 L.length = some L :=
  Memory.readBytes_writeBytes s.outMem 0 L

theorem complete_outLen_toNat {n : Nat} (s : State) (h : n ≤ 65536) : (State.complete n s).outLen.toNat = n :=
  BitVec.toNat_ofNat n 32 ▸ Nat.mod_eq_of_lt (by omega)

/-- R139(c): a DECODE of the bytes an ENCODE left in OUT, copied to IN, ends in the state that stores `B`. -/
theorem roundTrip_of_encoded {s u : State} {B : List Byte} (hu : runOperation .encode s = .next u) (hst : u.state ≠ .busy)
    (hfit : u.outLen.toNat ≤ u.params.inCap)
    (hE : Memory.readBytes u.outMem 0 u.outLen.toNat = some (encodeBytes B)) :
    ∃ v, roundTrip s = some (State.complete B.length (State.storeOut B v)) := by
  obtain ⟨v, hv⟩ : ∃ v, copyResultBack u = some v := ⟨_, copyResultBack_eq_some.2 ⟨hfit, _, hE, rfl⟩⟩
  obtain ⟨hlen, hstate, hparams, -, hin⟩ := copyResultBack_input hv
  have hd := runOperation_decode (hstate ▸ hst) (by rw [hlen, hparams]; exact hfit) (hin.trans hE)
  rw [decodeText_encodeBytes] at hd
  exact ⟨_, roundTrip_eq_some.2 ⟨u, v, hu, hv, hd⟩⟩

/-- R5 keeps the length of a result within the 32 bits of OUT_LEN. -/
theorem encodeBytes_length_le {p : Params} {B : List Byte} (hp : p.wf = true) (hB : B.length ≤ p.inCap) :
    (encodeBytes B).length ≤ 65536 := by
  obtain ⟨-, -, -, hout, hmax⟩ := (Params.wf_iff p).1 hp
  rw [encodeBytes_length]
  exact (encodedLength_mono hB).trans (hout.trans hmax)

/-- What a whole ENCODE leaves to be read (41_encoder.md R130, R135). -/
theorem exists_encoded {s : State} {B : List Byte} (hE : (encodeBytes B).length ≤ 65536) (hb : s.state ≠ .busy)
    (hl : s.inLen.toNat ≤ s.params.inCap) (hB : Memory.readBytes s.inMem 0 s.inLen.toNat = some B) :
    ∃ u, runOperation .encode s = .next u ∧ u.state = .done ∧ u.outLen.toNat = (encodeBytes B).length ∧
      Memory.readBytes u.outMem 0 u.outLen.toNat = some (encodeBytes B) := by
  have hout := complete_outLen_toNat (State.storeOut (encodeBytes B) (State.accept .encode s.inLen.toNat s)) hE
  refine ⟨_, runOperation_encode hb hl hB, rfl, hout, ?_⟩
  rw [hout]
  exact readBytes_complete_storeOut ..

/-- Settles O54: ENCODE leaves the encoding, whose padding is O10's, and the decoder undoes the encoder. -/
theorem encodeHasItsListedProperties : Obligations.EncodeHasItsListedProperties := by
  intro s B hwf hb hl hB
  have hn : B.length ≤ s.params.inCap := ((Memory.readBytes_eq_some_iff ..).1 hB).1 ▸ hl
  have hE := encodeBytes_length_le hwf hn
  obtain ⟨u, hu, hdone, hlen, hread⟩ := exists_encoded hE hb hl hB
  obtain ⟨S, hpad, hS, -, hnoPAD, -⟩ := symbolPaddingFollowsTheLength B
  refine ⟨u, hu, hdone, hlen, hread, ?_, ⟨S, hS, hnoPAD, hS ▸ hpad⟩, fun hfit => ?_⟩
  · rw [hlen, encodeBytes_length]
    exact Nat.mul_mod_right ..
  · obtain ⟨v, hv⟩ := roundTrip_of_encoded hu (by simp [hdone]) hfit hread
    have hn' : B.length ≤ 65536 := (le_encodedLength _).trans (encodeBytes_length B ▸ hE)
    exact ⟨_, hv, rfl, rfl, rfl, complete_outLen_toNat _ hn', readBytes_complete_storeOut B v⟩

end Sys2Proof.Machine
end

section
/-! PROOFS. The validator's verdicts as equivalences (42_validator.md R151-R157), what a validated text keeps (R161), and the
obligations on them. -/

namespace Sys2Proof.Machine

theorem isAlpha_eq_false_iff {c : Byte} : isAlpha c = false ↔ valueFor c = none :=
  Option.isSome_eq_false_iff.trans Option.isNone_iff_eq_none

/-- Fail-fast (R156): every code before the reported one has a value. -/
theorem firstInvalid_eq_some_iff {T : List Byte} {c : Byte} :
    firstInvalid T = some c ↔
      ∃ before after, T = before ++ c :: after ∧ (∀ x ∈ before, isAlpha x = true) ∧ isAlpha c = false := by
  simp only [firstInvalid, List.find?_eq_some_iff_append, Bool.not_eq_true', Bool.not_not]
  exact ⟨fun ⟨hc, as, bs, hT, has⟩ => ⟨as, bs, hT, has, hc⟩, fun ⟨as, bs, hT, has, hc⟩ => ⟨hc, as, bs, hT, has⟩⟩

theorem firstInvalid_eq_none_iff {T : List Byte} : firstInvalid T = none ↔ ∀ c ∈ T, isAlpha c = true := by
  simp [firstInvalid]

/-! ### Each verdict and the condition on which it is answered -/

theorem validate_eq_lengthError_iff {T : List Byte} {L : Nat} :
    validate T = .lengthError L ↔ L = (stripNL T).length ∧ L % 4 ≠ 0 := by
  refine ⟨validate_lengthError, ?_⟩
  rintro ⟨rfl, hL⟩
  exact if_pos hL

/-- Past the length check the alphabet check decides. -/
theorem validate_of_length {T : List Byte} (h : (stripNL T).length % 4 = 0) :
    validate T = (firstInvalid (stripPAD (stripNL T))).elim (.ok (stripPAD (stripNL T))) .invalidCharacter := by
  rw [validate, if_neg (not_not.2 h)]
  cases firstInvalid (stripPAD (stripNL T)) <;> rfl

theorem validate_eq_invalidCharacter_iff {T : List Byte} {c : Byte} :
    validate T = .invalidCharacter c ↔
      (stripNL T).length % 4 = 0 ∧ firstInvalid (stripPAD (stripNL T)) = some c := by
  refine ⟨fun h => ?_, fun ⟨hl, hf⟩ => by rw [validate_of_length hl, hf]; rfl⟩
  have hl := (validate_invalidCharacter h).1
  rw [validate_of_length hl] at h
  cases hf : firstInvalid (stripPAD (stripNL T)) with
  | none => simp [hf] at h
  | some d => exact ⟨hl, by simpa [hf] using h⟩

theorem validate_eq_ok_iff {T S : List Byte} :
    validate T = .ok S ↔
      (stripNL T).length % 4 = 0 ∧ S = stripPAD (stripNL T) ∧ ∀ c ∈ stripPAD (stripNL T), isAlpha c = true := by
  refine ⟨fun h => ?_, ?_⟩
  · obtain ⟨hl, rfl, hA⟩ := validate_ok h
    exact ⟨hl, rfl, hA⟩
  · rintro ⟨hl, rfl, hA⟩
    rw [validate_of_length hl, firstInvalid_eq_none_iff.2 hA]
    rfl

/-- Settles O13: R158's order of the checks, with the alphabet check of R155 read through `valueFor`. -/
theorem validatorVerdictsAreTheFourSteps : Obligations.ValidatorVerdictsAreTheFourSteps := by
  rintro T _ _ rfl rfl
  refine ⟨fun L => validate_eq_lengthError_iff, fun c => ?_, fun S => ?_, stripPAD_length_le (stripNL T)⟩
  · simp only [← isAlpha_eq_false_iff, ← isAlpha_iff_valueFor_ne_none]
    exact validate_eq_invalidCharacter_iff.trans (and_congr_right' firstInvalid_eq_some_iff)
  · simp only [← isAlpha_iff_valueFor_ne_none]
    exact validate_eq_ok_iff

/-! ### A validated text has nothing left to remove -/

theorem stripNL_of_isAlpha {S : List Byte} (h : ∀ c ∈ S, isAlpha c = true) : stripNL S = S :=
  List.filter_eq_self.2 fun c hc => bne_iff_ne.2 (ne_NL_of_isAlpha (h c hc))

theorem stripPAD_of_isAlpha {S : List Byte} (h : ∀ c ∈ S, isAlpha c = true) : stripPAD S = S :=
  List.filter_eq_self.2 fun c hc => bne_iff_ne.2 (ne_PAD_of_isAlpha (h c hc))

/-- Settles O14: newline and padding removal and the alphabet check leave a validated text as it is, so only its length can
fail. -/
theorem revalidationFailsOnlyByLength : Obligations.RevalidationFailsOnlyByLength := by
  intro T S h
  obtain ⟨-, -, hA⟩ := validate_ok h
  have hNL : stripNL S = S := stripNL_of_isAlpha hA
  have hPAD : stripPAD S = S := stripPAD_of_isAlpha hA
  refine ⟨fun hl => validate_eq_ok_iff.2 ?_, fun hl => validate_eq_lengthError_iff.2 ?_⟩
  · rw [hNL, hPAD]
    exact ⟨hl, rfl, hA⟩
  · rw [hNL]
    exact ⟨rfl, hl⟩

end Sys2Proof.Machine
end

section
/-! PROOFS. The decoder (43_decoder.md R181-R184, R188, R189): what regrouping answers is fixed by the bits the answer spells, so the
closed form and the datapath are each shown to spell the bits of their values, and the obligations on the decoder. -/

namespace Sys2Proof.Machine

/-! ### Regrouping, by the bits of its answer -/

/-- R182 and R183: the bytes that spell the values' stream up to fewer than eight discarded bits are its regrouping. -/
theorem regroup_eq_of_bits {vs : List Sextet} {D : List Byte} {discarded : List Bool}
    (h : vs.flatMap bits6 = D.flatMap bits8 ++ discarded) (hd : discarded.length < 8) : regroup vs = D := by
  have hlen : 6 * vs.length / 8 = D.length := by
    have hbits := congrArg List.length h
    rw [flatMap_bits6_length, List.length_append, flatMap_bits8_length] at hbits
    omega
  refine List.ext_getElem (by rw [regroup_length, hlen]) fun j h1 h2 => ?_
  have hj : slice (vs.flatMap bits6) (8 * j) 8 = bits8 D[j] := by
    rw [h, slice_append_left _ _ _ _ (by rw [flatMap_bits8_length]; omega), slice_flatMap bits8_length D j h2]
  simp [regroup, hj]

/-! ### The closed form -/

theorem bits6_two_four (v : Sextet) : bits6 v = msbFirst (v.extractLsb' 4 2) ++ msbFirst (v.extractLsb' 0 4) :=
  msbFirst_split (n := 2) (m := 4) rfl v

theorem bits6_four_two (v : Sextet) : bits6 v = msbFirst (v.extractLsb' 2 4) ++ msbFirst (v.extractLsb' 0 2) :=
  msbFirst_split (n := 4) (m := 2) rfl v

theorem bits8_append_six_two (x : Sextet) (y : BitVec 2) : bits8 (x ++ y) = bits6 x ++ msbFirst y := msbFirst_append x y

theorem bits8_append_four_four (x y : BitVec 4) : bits8 (x ++ y) = msbFirst x ++ msbFirst y := msbFirst_append x y

theorem bits8_append_two_six (x : BitVec 2) (y : Sextet) : bits8 (x ++ y) = msbFirst x ++ bits6 y := msbFirst_append x y

@[simp] theorem msbFirst_length {w : Nat} (x : BitVec w) : (msbFirst x).length = w := by simp [msbFirst]

/-- R184's groups spell the bits of their values; a partial group leaves six, four or two of them over. -/
theorem exists_flatMap_bits6_eq_regroupGroups (vs : List Sextet) :
    ∃ discarded : List Bool, vs.flatMap bits6 = (regroupGroups vs).flatMap bits8 ++ discarded ∧ discarded.length < 8 := by
  induction vs using regroupGroups.induct with
  | case1 => exact ⟨[], rfl, by decide⟩
  | case2 a => exact ⟨bits6 a, by simp [regroupGroups], by simp⟩
  | case3 a b =>
    refine ⟨msbFirst (b.extractLsb' 0 4), ?_, by simp⟩
    simp [regroupGroups, bits8_append_six_two, bits6_two_four b]
  | case4 a b c =>
    refine ⟨msbFirst (c.extractLsb' 0 2), ?_, by simp⟩
    simp [regroupGroups, bits8_append_six_two, bits8_append_four_four, bits6_two_four b, bits6_four_two c]
  | case5 a b c d rest ih =>
    obtain ⟨discarded, h, hd⟩ := ih
    refine ⟨discarded, ?_, hd⟩
    simp [regroupGroups, bits8_append_six_two, bits8_append_four_four, bits8_append_two_six, bits6_two_four b,
      bits6_four_two c, h]

/-- Settles O17: the groups spell the stream that the regrouping cuts into bytes. -/
theorem decoderClosedFormIsTheRegrouping : Obligations.DecoderClosedFormIsTheRegrouping := by
  intro vs
  obtain ⟨discarded, h, hd⟩ := exists_flatMap_bits6_eq_regroupGroups vs
  exact (regroup_eq_of_bits h hd).symm

/-! ### The datapath, by the bits it holds -/

/-- Cutting the number of a stream at a place cuts the stream there. -/
theorem msbFirst_ofNat_add (n m a : Nat) :
    msbFirst (BitVec.ofNat (n + m) a) = msbFirst (BitVec.ofNat n (a / 2 ^ m)) ++ msbFirst (BitVec.ofNat m a) := by
  have hhigh : (BitVec.ofNat (n + m) a).extractLsb' m n = BitVec.ofNat n (a / 2 ^ m) :=
    BitVec.eq_of_getLsbD_eq fun i hi => by
      rw [BitVec.getLsbD_extractLsb', BitVec.getLsbD_ofNat, BitVec.getLsbD_ofNat, Nat.testBit_div_two_pow, Nat.add_comm m i]
      simp [hi]
  have hlow : (BitVec.ofNat (n + m) a).extractLsb' 0 m = BitVec.ofNat m a :=
    BitVec.eq_of_getLsbD_eq fun i hi => by
      rw [BitVec.getLsbD_extractLsb', BitVec.getLsbD_ofNat, BitVec.getLsbD_ofNat]
      simp [hi, Nat.lt_add_left n hi]
  rw [msbFirst_split rfl, hhigh, hlow]

/-- The bits the datapath has taken in: those of the bytes it has emitted, then the `nb` that wait in the accumulator. -/
def DecAcc.bits (r : DecAcc) : List Bool := r.out.flatMap bits8 ++ msbFirst (BitVec.ofNat r.nb r.acc)

theorem DecAcc.bits_mk (acc nb : Nat) (out : List Byte) :
    (DecAcc.mk acc nb out).bits = out.flatMap bits8 ++ msbFirst (BitVec.ofNat nb acc) := rfl

theorem DecAcc.exists_eq_of_full {r : DecAcc} (h : 8 ≤ r.nb) : ∃ acc m out, r = ⟨acc, 8 + m, out⟩ := by
  obtain ⟨m, hm⟩ := Nat.exists_eq_add_of_le h
  exact ⟨r.acc, m, r.out, by rw [← hm]⟩

theorem decEmit_of_full (acc m : Nat) (out : List Byte) :
    decEmit ⟨acc, 8 + m, out⟩ = ⟨acc % 2 ^ m, m, out ++ [BitVec.ofNat 8 (acc / 2 ^ m)]⟩ := by
  simp [decEmit]

theorem decEmit_of_not_full {r : DecAcc} (h : ¬ 8 ≤ r.nb) : decEmit r = r := if_neg h

/-- Emitting a byte moves bits from the accumulator to the output. -/
@[simp] theorem decEmit_bits (r : DecAcc) : (decEmit r).bits = r.bits := by
  by_cases hfull : 8 ≤ r.nb
  · obtain ⟨acc, m, out, rfl⟩ := DecAcc.exists_eq_of_full hfull
    have hrest : BitVec.ofNat m (acc % 2 ^ m) = BitVec.ofNat m acc := BitVec.eq_of_toNat_eq (by simp)
    have hbyte : msbFirst (BitVec.ofNat 8 (acc / 2 ^ m)) = bits8 (BitVec.ofNat 8 (acc / 2 ^ m)) := rfl
    rw [decEmit_of_full, DecAcc.bits_mk, DecAcc.bits_mk, hrest, msbFirst_ofNat_add, hbyte]
    simp
  · rw [decEmit_of_not_full hfull]

@[simp] theorem decValue_bits (r : DecAcc) (v : Sextet) : (decValue r v).bits = r.bits ++ bits6 v := by
  have hacc : (r.acc * 64 + v.toNat) / 2 ^ 6 = r.acc := by omega
  have hv : BitVec.ofNat 6 (r.acc * 64 + v.toNat) = v := BitVec.eq_of_toNat_eq (by simp; omega)
  have hv6 : msbFirst v = bits6 v := rfl
  rw [decValue, decEmit_bits]
  simp only [DecAcc.bits, msbFirst_ofNat_add, hacc, hv, hv6, List.append_assoc]

theorem foldl_decValue_bits (vs : List Sextet) (r : DecAcc) : (vs.foldl decValue r).bits = r.bits ++ vs.flatMap bits6 := by
  induction vs generalizing r with
  | nil => simp
  | cons v vs ih => rw [List.foldl_cons, ih, decValue_bits, List.flatMap_cons, List.append_assoc]

/-! ### The datapath's registers -/

/-- The accumulator holds no more than the bits that `nb` counts. -/
def DecAcc.Fits (r : DecAcc) : Prop := r.acc < 2 ^ r.nb

theorem shift_sextet_lt {acc nb : Nat} (h : acc < 2 ^ nb) (v : Sextet) : acc * 64 + v.toNat < 2 ^ (nb + 6) := by
  rw [Nat.pow_add]; omega

/-- One `if nb >= 8` is enough: fewer than eight bits stay. -/
theorem decEmit_registers {r : DecAcc} (hr : r.Fits) (hnb : r.nb ≤ 15) : (decEmit r).Fits ∧ (decEmit r).nb ≤ 7 := by
  by_cases hfull : 8 ≤ r.nb
  · obtain ⟨acc, m, out, rfl⟩ := DecAcc.exists_eq_of_full hfull
    have hm : m ≤ 7 := by simp only at hnb; omega
    rw [decEmit_of_full]
    exact ⟨Nat.mod_lt _ (Nat.two_pow_pos _), hm⟩
  · rw [decEmit_of_not_full hfull]
    exact ⟨hr, by omega⟩

/-- What R188's loop keeps: at every value of a sequence at most seven bits wait in the accumulator. -/
theorem foldl_decValue_registers (vs : List Sextet) (r : DecAcc) (hr : r.Fits) (hnb : r.nb ≤ 7) :
    (vs.foldl decValue r).Fits ∧ (vs.foldl decValue r).nb ≤ 7 := by
  induction vs generalizing r with
  | nil => exact ⟨hr, hnb⟩
  | cons v vs ih =>
    obtain ⟨hf, hn⟩ := decEmit_registers (r := ⟨r.acc * 64 + v.toNat, r.nb + 6, r.out⟩) (shift_sextet_lt hr v)
      (show r.nb + 6 ≤ 15 by omega)
    exact ih (decValue r v) hf hn

theorem foldl_decValue_registers_of_empty (vs : List Sextet) :
    (vs.foldl decValue ⟨0, 0, []⟩).Fits ∧ (vs.foldl decValue ⟨0, 0, []⟩).nb ≤ 7 :=
  foldl_decValue_registers vs ⟨0, 0, []⟩ Nat.one_pos (Nat.zero_le 7)

/-- The bits that wait after the last value are the ones R183 discards. -/
theorem regroupAccumulator_eq_regroup (vs : List Sextet) : regroupAccumulator vs = regroup vs := by
  have hbits : vs.flatMap bits6 = (vs.foldl decValue ⟨0, 0, []⟩).bits := (foldl_decValue_bits vs ⟨0, 0, []⟩).symm
  obtain ⟨-, hnb⟩ := foldl_decValue_registers_of_empty vs
  exact (regroup_eq_of_bits hbits (by rw [msbFirst_length]; omega)).symm

/-- Settles O18: the datapath emits the bits it takes in, all but the at most seven that wait, to which the next value adds six. -/
theorem decoderDatapathRefinesTheRegrouping : Obligations.DecoderDatapathRefinesTheRegrouping := by
  refine ⟨regroupAccumulator_eq_regroup, fun S vs hS => ?_, fun vs v => ?_⟩
  · rw [decodeSymbols, hS, regroupAccumulator_eq_regroup]
    rfl
  · obtain ⟨hf, hnb⟩ := foldl_decValue_registers_of_empty vs
    exact ⟨Nat.add_le_add_right hnb 6, (shift_sextet_lt hf v).trans_le (Nat.pow_le_pow_right Nat.two_pos (by omega))⟩

/-! ### Validated texts and encodings -/

/-- R182's length, for symbols that all have values. -/
theorem decodeSymbols_of_isAlpha {S : List Byte} (h : ∀ c ∈ S, isAlpha c = true) :
    ∃ D, decodeSymbols S = some D ∧ D.length = 6 * S.length / 8 := by
  obtain ⟨vs, hvs, hl⟩ := symbolValues_of_isAlpha h
  exact ⟨regroup vs, by rw [decodeSymbols, hvs, Option.map_some], by rw [regroup_length, hl]⟩

/-- Settles O16: the validator leaves only symbols with values, and the rest is arithmetic on `floor(6k/8)`. -/
theorem decodingHasThreeBytesPerFour : Obligations.DecodingHasThreeBytesPerFour := by
  intro T S h
  obtain ⟨-, -, hA⟩ := validate_ok h
  obtain ⟨D, hD, hl⟩ := decodeSymbols_of_isAlpha hA
  exact ⟨D, hD, hl, by omega, by omega, by omega, by omega, by omega, by omega, by omega⟩

/-- Settles O19: what the validator leaves of an encoding are its symbols, and the decoder undoes the encoder on them. -/
theorem decodeOfEncodingIsTheInput : Obligations.DecodeOfEncodingIsTheInput := fun B =>
  ⟨encodeSymbols B, (stripPAD_encodeBytes B).symm, validate_encodeBytes B, decodeSymbols_encodeSymbols B⟩

end Sys2Proof.Machine
end

section
/-! PROOFS. A command that needs no engine step: ParamError at once (44_control.md R202) and ACK (R204), and the obligations on
both. -/

namespace Sys2Proof.Machine

/-! ### ParamError -/

theorem engineStep_of_pending_eq_none {s : State} (h : s.pending = none) : engineStep s = .next s := by
  rw [engineStep, h]

/-- Settles O21: both commands are `startOp` outside BUSY, which answers error entry, and error entry starts no operation for the
engine to complete. -/
theorem lengthBeyondCapacityIsAParamError : Obligations.LengthBeyondCapacityIsAParamError := by
  intro s hb hcap
  refine ⟨⟨?_, ?_⟩, fun hp => ?_⟩
  · exact (exec_encode hb).trans (startOp_paramError hcap)
  · exact (exec_decode hb).trans (startOp_paramError hcap)
  · have hpending : (State.raiseError .param s.inLen s).pending = none := by rw [State.raiseError_pending, hp]
    exact engineStep_of_pending_eq_none hpending

/-! ### ACK -/

theorem exec_ack_of_done_or_error {s : State} (h : s.state = .done ∨ s.state = .error) :
    exec .ack s = .next (State.acknowledge s) := if_pos h

theorem exec_ack_of_idle {s : State} (h : s.state = .idle) : exec .ack s = .next s := if_neg (by simp [h])

theorem exists_exec_ack_idle {s : State} (hb : s.state ≠ .busy) : ∃ t, exec .ack s = .next t ∧ t.state = .idle := by
  cases hs : s.state with
  | idle => exact ⟨s, exec_ack_of_idle hs, hs⟩
  | busy => exact absurd hs hb
  | done => exact ⟨_, exec_ack_of_done_or_error (.inl hs), State.acknowledge_state s⟩
  | error => exact ⟨_, exec_ack_of_done_or_error (.inr hs), State.acknowledge_state s⟩

theorem State.irq_of_idle {s : State} (h : s.state = .idle) : s.irq = false := by simp [State.irq, h]

/-- Settles O23: outside BUSY an ACK always ends in IDLE, where a second ACK has no effect and the interrupt output is low. -/
theorem acknowledgeReturnsToIdle : Obligations.AcknowledgeReturnsToIdle := by
  refine ⟨decodeCmd_encode .ack, fun _ => exec_ack_of_done_or_error, fun _ => exec_ack_of_idle, fun s hb => ?_⟩
  obtain ⟨t, ht, hidle⟩ := exists_exec_ack_idle hb
  exact ⟨t, ht, exec_ack_of_idle hidle, State.irq_of_idle hidle⟩

end Sys2Proof.Machine
end

section
/-! PROOFS. The invariant of R64's state through every operation and every turn (10_state.md R25-R37), and the obligations on it:
a result fits in OUT_MEM and a diagnostic is the one of R29's table. -/

namespace Sys2Proof.Machine

/-! ### What fits -/

theorem Memory.readBytes_length {m : Memory} {i n : Nat} {L : List Byte} (h : Memory.readBytes m i n = some L) :
    L.length = n := ((Memory.readBytes_eq_some_iff ..).1 h).1

/-- R5 keeps the encoding of every input that fits IN_MEM within OUT_MEM. -/
theorem encodedLength_le_outCap {p : Params} {n : Nat} (hp : p.wf = true) (hn : n ≤ p.inCap) :
    encodedLength n ≤ p.outCap := by
  obtain ⟨-, -, -, hout, -⟩ := (Params.wf_iff p).1 hp
  exact (encodedLength_mono hn).trans hout

/-- Settles O9: the length is R131's closed form, monotone in the input's, so R5's bound on OUT_CAP covers it. -/
theorem encodingHasFourBytesPerThree : Obligations.EncodingHasFourBytesPerThree := by
  intro B
  rw [encodeBytes_length]
  exact ⟨rfl, Nat.mul_mod_right .., fun _ => encodedLength_le_outCap⟩

theorem State.params_wf_of_inv {s : State} (h : s.inv = true) : s.params.wf = true := ((State.inv_iff s).1 h).1

/-- The latched operand is within capacity, so the input read for it is. -/
theorem input_length_le_inCap {s : State} {m : Mode} {n : Nat} {L : List Byte} (h : s.inv = true)
    (hp : s.pending = some ⟨m, n⟩) (hL : Memory.readBytes s.inMem 0 n = some L) : L.length ≤ s.params.inCap := by
  obtain ⟨-, -, -, -, hop, -⟩ := (State.inv_iff s).1 h
  obtain ⟨-, hn, -⟩ := (State.operandOk_iff s).1 hop _ hp
  exact (Memory.readBytes_length hL).trans_le hn

/-! ### The engine's turn keeps it -/

theorem errInfoOk_of_lengthError {s : State} {T : List Byte} {L : Nat} (hp : s.params.wf = true)
    (hT : T.length ≤ s.params.inCap) (hL : validate T = .lengthError L) :
    (State.raiseInEngine .length (BitVec.ofNat 32 L) s).errInfoOk = true := by
  obtain ⟨-, -, hcap, -⟩ := (Params.wf_iff _).1 hp
  obtain ⟨hlen, hmod⟩ := validate_lengthError hL
  have hle := stripNL_length_le T
  have hword : L % 2 ^ 32 = L := Nat.mod_eq_of_lt (by omega)
  simp only [State.errInfoOk, State.raiseInEngine_err, State.raiseInEngine_errInfo, State.raiseInEngine_params,
    BitVec.toNat_ofNat, hword, Bool.and_eq_true, bne_iff_ne, decide_eq_true_iff]
  exact ⟨hmod, by omega⟩

theorem errInfoOk_of_invalidCharacter {s : State} {T : List Byte} {c : Byte} (hc : validate T = .invalidCharacter c) :
    (State.raiseInEngine .invalidChar (c.setWidth 32) s).errInfoOk = true := by
  obtain ⟨-, -, hNL, hPAD, hA⟩ := validate_invalidCharacter hc
  have hback : (c.setWidth 32).setWidth 8 = c := by simp
  have hval : (c.setWidth 32).toNat < 256 := by simp; omega
  have hne : ∀ d : Byte, c ≠ d → c.setWidth 32 ≠ d.setWidth 32 := fun d hd h =>
    hd (by simpa using congrArg (BitVec.setWidth 8) h)
  simp only [State.errInfoOk, State.raiseInEngine_err, State.raiseInEngine_errInfo, hback, hA, Bool.and_eq_true,
    bne_iff_ne]
  exact ⟨⟨⟨decide_eq_true hval, rfl⟩, hne _ hNL⟩, hne _ hPAD⟩

/-- Every verdict of the validator ends a DECODE inside the invariant. -/
theorem inv_decodeText {s : State} {T : List Byte} (h : s.inv = true) (hT : T.length ≤ s.params.inCap) :
    (decodeText T s).inv = true := by
  have hp := State.params_wf_of_inv h
  rcases decodeText_cases T s with ⟨S, D, -, -, hD, he⟩ | ⟨L, hL, he⟩ | ⟨c, hc, he⟩ <;> rw [he]
  · have hout : D.length ≤ s.params.outCap :=
      (le_encodedLength _).trans (encodedLength_le_outCap hp (hD.trans hT))
    exact inv_complete D h hout
  · exact inv_raiseInEngine _ _ h (by decide) (errInfoOk_of_lengthError hp hT hL)
  · exact inv_raiseInEngine _ _ h (by decide) (errInfoOk_of_invalidCharacter hc)

theorem inv_engineStep {s t : State} (h : s.inv = true) (ht : engineStep s = .next t) : t.inv = true := by
  rcases engineStep_next ht with ⟨-, rfl⟩ | ⟨n, B, hp, hB, rfl⟩ | ⟨n, T, hp, hT, rfl⟩
  · exact h
  · have hout := encodedLength_le_outCap (State.params_wf_of_inv h) (input_length_le_inCap h hp hB)
    exact inv_complete _ h (encodeBytes_length B ▸ hout)
  · exact inv_decodeText h (input_length_le_inCap h hp hT)

/-! ### A host access keeps it -/

theorem inv_exec {i : Instr} {s t : State} (h : s.inv = true) (ht : exec i s = .next t) : t.inv = true := by
  rcases exec_next ht with ⟨-, rfl⟩ | ⟨m, -, hb, hcap, rfl⟩ | ⟨m, -, -, hl, hw, rfl⟩ | ⟨-, hs, rfl⟩ | ⟨-, -, rfl⟩
  · exact h
  · exact inv_raiseError _ _ h hb (by decide) (decide_eq_true hcap)
  · exact inv_accept m h hl hw
  · exact inv_acknowledge h hs
  · exact h

theorem inv_illegalCmd {w : Word} {s : State} (h : s.inv = true) (hw : decodeCmd w = .illegal) :
    (illegalCmd w s).inv = true := by
  unfold illegalCmd
  split
  · exact h
  · next hb => exact inv_raiseError _ _ h hb (by decide) (beq_iff_eq.2 hw)

theorem inv_cmdWrite {w : Word} {s t : State} (h : s.inv = true) (ht : cmdWrite w s = .next t) : t.inv = true := by
  rcases cmdWrite_next ht with ⟨i, -, hx⟩ | ⟨hw, rfl⟩
  · exact inv_exec h hx
  · exact inv_illegalCmd h hw

/-- What a WRITE stores lies where its access was routed, inside the capacity. -/
theorem inv_writeTarget {s : State} {d : BusData} {off : Offset} {tg : Target} (h : s.inv = true)
    (hr : route s.params (busWidth d) off = some tg) : (writeTarget d s tg).inv = true := by
  rcases writeTarget_cases d s tg with he | ⟨i, rfl, -, he⟩ | ⟨-, hb, he⟩ | ⟨-, he⟩ <;> rw [he]
  · exact h
  · obtain ⟨-, hi, -⟩ := route_inWindow hr
    exact inv_storeIn i _ h (busBytes_length d ▸ hi)
  · exact inv_setInLen _ h hb
  · exact inv_setIe _ h

theorem inv_portAccess {a : Access} {s t : State} (h : s.inv = true) (ht : portAccess a s = .next t) : t.inv = true := by
  rcases portAccess_next ht with ⟨-, rfl⟩ | ⟨w, tg, d, -, -, -, rfl⟩ | ⟨d, tg, -, hr, rfl⟩
  · exact inv_respond _ h
  · exact inv_respond _ h
  · exact inv_respond _ (inv_writeTarget h hr)

theorem inv_hostStep {a : Access} {s t : State} (h : s.inv = true) (ht : hostStep a s = .next t) : t.inv = true := by
  cases hc : commandWord a with
  | some w => exact inv_cmdWrite (inv_respond _ h) (hostStep_command hc ▸ ht)
  | none => exact inv_portAccess h (hostStep_port hc ▸ ht)

/-- Settles O49: the turn taken is no part of the invariant, and each kind of turn keeps it. -/
theorem everyStepKeepsTheInvariant : Obligations.EveryStepKeepsTheInvariant := by
  intro s t h ht
  have h' := inv_withEvents s.events.tail h
  rcases step_eq s with ⟨-, -, he⟩ | ⟨-, -, he⟩ | ⟨-, -, -, he⟩ | ⟨a, -, -, -, he⟩ <;> rw [he] at ht
  · exact inv_engineStep h' ht
  · obtain rfl := by simpa using ht
    exact inv_applyReset (State.params_wf_of_inv h')
  · obtain rfl := by simpa using ht
    exact h'
  · exact inv_hostStep h' ht

/-- Settles O48: `State.reset` is the reset of a state with the chosen parameters, which are within R5's ranges. -/
theorem resetMeetsTheInvariant : Obligations.ResetMeetsTheInvariant := inv_applyReset (s := State.reset) Config.params_wf

end Sys2Proof.Machine
end

section
/-! PROOFS. ENCODE and DECODE from their acceptance to their result (44_control.md R201, R206; 41_encoder.md R130; 43_decoder.md R180):
what each of the two turns answers, with its frame, and the obligations on them. -/

namespace Sys2Proof.Machine

/-! ### Acceptance -/

theorem Memory.written_iff {m : Memory} {n : Nat} : Memory.written m n = true ↔ ∀ i < n, Memory.read m i ≠ none := by
  rw [Memory.written, Memory.readBytes_isSome_iff]
  simp only [Nat.zero_add]

theorem Memory.written_eq_false_iff {m : Memory} {n : Nat} :
    Memory.written m n = false ↔ ∃ i < n, Memory.read m i = none := by
  rw [← Bool.not_eq_true, Memory.written_iff]
  simp

@[simp] theorem State.accept_irq (m : Mode) (n : Nat) (s : State) : (State.accept m n s).irq = false := by
  simp [State.irq]

/-- Settles O20: outside BUSY both commands are `startOp`, which accepts an input that is within capacity and written. -/
theorem encodeAndDecodeAreAccepted : Obligations.EncodeAndDecodeAreAccepted := by
  intro s hb hl hin
  have hw := Memory.written_iff.2 hin
  exact ⟨⟨_, (exec_encode hb).trans (startOp_accept hl hw), State.accept_irq .., rfl⟩,
    ⟨_, (exec_decode hb).trans (startOp_accept hl hw), State.accept_irq .., rfl⟩⟩

/-- Settles O22: `startOp` finds the unwritten byte before it accepts. -/
theorem unwrittenInputFaultsAtAcceptance : Obligations.UnwrittenInputFaultsAtAcceptance := by
  intro s hb hl hin
  have hw := Memory.written_eq_false_iff.2 hin
  exact ⟨(exec_encode hb).trans (startOp_fault hl hw), (exec_decode hb).trans (startOp_fault hl hw)⟩

/-! ### The engine's turn, by the pending mode and the validator's verdict -/

theorem engineStep_encode {s : State} {n : Nat} {B : List Byte} (hp : s.pending = some ⟨.encode, n⟩)
    (hB : Memory.readBytes s.inMem 0 n = some B) :
    engineStep s = .next (State.complete (encodeBytes B).length (State.storeOut (encodeBytes B) s)) := by
  simp only [engineStep, hp, completeEncode, hB]

theorem engineStep_decode {s : State} {n : Nat} {T : List Byte} (hp : s.pending = some ⟨.decode, n⟩)
    (hT : Memory.readBytes s.inMem 0 n = some T) : engineStep s = .next (decodeText T s) := by
  simp only [engineStep, hp, completeDecode, hT]

theorem decodeText_of_ok {T S D : List Byte} (s : State) (hS : validate T = .ok S) (hD : decodeSymbols S = some D) :
    decodeText T s = State.complete D.length (State.storeOut D s) := by
  simp only [decodeText, hS, decodePhase, hD]

theorem decodeText_of_lengthError {T : List Byte} {L : Nat} (s : State) (h : validate T = .lengthError L) :
    decodeText T s = State.raiseInEngine .length (BitVec.ofNat 32 L) s := by
  simp only [decodeText, h]

theorem decodeText_of_invalidCharacter {T : List Byte} {c : Byte} (s : State) (h : validate T = .invalidCharacter c) :
    decodeText T s = State.raiseInEngine .invalidChar (c.setWidth 32) s := by
  simp only [decodeText, h]

theorem Memory.read_writeBytes_result {L : List Byte} {j : Nat} (m : Memory) (hj : j < L.length) :
    Memory.read (Memory.writeBytes m 0 L) j = L[j]? := by
  rw [List.getElem?_eq_getElem hj]
  simpa using Memory.read_writeBytes_inside m 0 j L L[j] (List.getElem?_eq_getElem hj)

theorem Memory.read_writeBytes_result_some {L : List Byte} {j : Nat} {b : Byte} (m : Memory) (h : L[j]? = some b) :
    Memory.read (Memory.writeBytes m 0 L) j = some b :=
  (Memory.read_writeBytes_result m (List.getElem?_eq_some_iff.1 h).1).trans h

theorem Memory.read_writeBytes_past {L : List Byte} {j : Nat} (m : Memory) (hj : L.length ≤ j) :
    Memory.read (Memory.writeBytes m 0 L) j = Memory.read m j :=
  Memory.read_writeBytes_above m 0 j L (by omega)

/-- Settles O24: the completion writes the encoding from `OUT[0]` on, by R70's `MemWrite`. -/
theorem encodeCompletionWritesTheEncoding : Obligations.EncodeCompletionWritesTheEncoding := by
  intro s n B hp hB
  exact ⟨Memory.writeBytes s.outMem 0 (encodeBytes B), engineStep_encode hp hB,
    fun _ _ => Memory.read_writeBytes_result_some _, fun _ => Memory.read_writeBytes_past _⟩

/-- Settles O25: the validator's verdict decides how the completion ends, and a validated text always decodes. -/
theorem decodeCompletionWritesTheDecodingOrTheError : Obligations.DecodeCompletionWritesTheDecodingOrTheError := by
  intro s n T hp hT
  have hturn : turn .engine s = .next (decodeText T s) := engineStep_decode hp hT
  refine ⟨fun L hL => ?_, fun c hc => ?_, fun S hS => ?_⟩
  · rw [hturn, decodeText_of_lengthError s hL]
    rfl
  · rw [hturn, decodeText_of_invalidCharacter s hc]
    rfl
  · obtain ⟨D, hD, -⟩ := decodeSymbols_of_validate hS
    rw [decodeText_of_ok s hS hD] at hturn
    exact ⟨D, Memory.writeBytes s.outMem 0 D, hD, hturn, fun _ _ => Memory.read_writeBytes_result_some _,
      fun _ => Memory.read_writeBytes_past _⟩

/-! ### The whole operation -/

theorem State.irq_of_done_or_error {s : State} (h : s.state = .done ∨ s.state = .error) : s.irq = s.ie := by
  rcases h with h | h <;> simp [State.irq, h]

/-- Settles O26: acceptance leaves the input in place, and the completion reads it. -/
theorem encodeRunsToItsResult : Obligations.EncodeRunsToItsResult := by
  intro s B hb hl hB
  have hturn := engineStep_encode (State.accept_pending .encode s.inLen.toNat s) hB
  exact ⟨_, _, (exec_encode hb).trans (startOp_of_input hl hB), hturn, rfl, rfl, rfl, rfl, rfl, rfl, rfl,
    rfl, rfl, rfl, rfl, State.irq_of_done_or_error (.inl rfl),
    readBytes_complete_storeOut .., fun _ => Memory.read_writeBytes_past _⟩

/-- What a DECODE leaves alone, however it ends; it always ends in DONE or ERROR. -/
theorem decodeText_frame (T : List Byte) (s : State) :
    (decodeText T s).pending = none ∧ (decodeText T s).inMem = s.inMem ∧ (decodeText T s).inLen = s.inLen ∧
      (decodeText T s).ie = s.ie ∧ (decodeText T s).params = s.params ∧ (decodeText T s).response = s.response ∧
      (decodeText T s).events = s.events ∧ ((decodeText T s).state = .done ∨ (decodeText T s).state = .error) := by
  rcases decodeText_cases T s with ⟨S, D, -, -, -, he⟩ | ⟨L, -, he⟩ | ⟨c, -, he⟩ <;> rw [he] <;> simp

/-- Settles O27: the frame is the same for every verdict, and each verdict fixes the result registers. -/
theorem decodeRunsToItsResult : Obligations.DecodeRunsToItsResult := by
  intro s T hb hl hT
  obtain ⟨hpending, hinMem, hinLen, hie, hparams, hresponse, hevents, hend⟩ :=
    decodeText_frame T (State.accept .decode s.inLen.toNat s)
  have hturn := engineStep_decode (State.accept_pending .decode s.inLen.toNat s) hT
  refine ⟨_, _, (exec_decode hb).trans (startOp_of_input hl hT), hturn, hpending, hinMem, hinLen, hie,
    hparams, hresponse, hevents, (State.irq_of_done_or_error hend).trans hie,
    fun S hS => ?_, fun L hL => ?_, fun c hc => ?_⟩
  · obtain ⟨D, hD, -⟩ := decodeSymbols_of_validate hS
    rw [decodeText_of_ok _ hS hD]
    exact ⟨D, hD, rfl, rfl, rfl, rfl, readBytes_complete_storeOut .., fun _ => Memory.read_writeBytes_past _⟩
  · rw [decodeText_of_lengthError _ hL]
    exact ⟨rfl, rfl, rfl, rfl, rfl⟩
  · rw [decodeText_of_invalidCharacter _ hc]
    exact ⟨rfl, rfl, rfl, rfl, rfl⟩

/-! ### The result depends on the input alone -/

/-- Two states show the host the same result (41_encoder.md R137(g)). -/
def SameResult (t' t : State) : Prop :=
  t'.state = t.state ∧ t'.err = t.err ∧ t'.errInfo = t.errInfo ∧ t'.outLen = t.outLen ∧
    ∀ j < t.outLen.toNat, Memory.read t'.outMem j = Memory.read t.outMem j

theorem sameResult_complete (L : List Byte) (s' s : State) :
    SameResult (State.complete L.length (State.storeOut L s')) (State.complete L.length (State.storeOut L s)) := by
  refine ⟨rfl, rfl, rfl, rfl, fun j hj => ?_⟩
  have hj : j < L.length := Nat.lt_of_lt_of_le hj (BitVec.toNat_ofNat .. ▸ Nat.mod_le ..)
  exact (Memory.read_writeBytes_result s'.outMem hj).trans (Memory.read_writeBytes_result s.outMem hj).symm

theorem sameResult_raiseInEngine (e : ErrCode) (w : Word) (s' s : State) :
    SameResult (State.raiseInEngine e w s') (State.raiseInEngine e w s) :=
  ⟨rfl, rfl, rfl, rfl, fun j hj => absurd hj (Nat.not_lt_zero j)⟩

theorem sameResult_decodeText (T : List Byte) (s' s : State) : SameResult (decodeText T s') (decodeText T s) := by
  rcases decodeText_cases T s with ⟨S, D, hS, hD, -, he⟩ | ⟨L, hL, he⟩ | ⟨c, hc, he⟩ <;> rw [he]
  · rw [decodeText_of_ok s' hS hD]
    exact sameResult_complete D s' s
  · rw [decodeText_of_lengthError s' hL]
    exact sameResult_raiseInEngine _ _ s' s
  · rw [decodeText_of_invalidCharacter s' hc]
    exact sameResult_raiseInEngine _ _ s' s

/-- Settles O28: both states read the same input, and what an operation shows of it does not depend on the state. -/
theorem resultDependsOnlyOnTheInput : Obligations.ResultDependsOnlyOnTheInput := by
  intro s s' t p hp hp' hin ht
  have hread : Memory.readBytes s'.inMem 0 p.n = Memory.readBytes s.inMem 0 p.n :=
    (Memory.readBytes_congr fun k hk => by rw [Nat.zero_add]; exact hin k hk).symm
  rcases engineStep_next ht with ⟨hnone, -⟩ | ⟨n, B, hpe, hB, rfl⟩ | ⟨n, T, hpd, hT, rfl⟩
  · simp [hp] at hnone
  · obtain rfl : p = ⟨.encode, n⟩ := Option.some_injective _ (hp.symm.trans hpe)
    exact ⟨_, engineStep_encode hp' (hread.trans hB), sameResult_complete _ s' s⟩
  · obtain rfl : p = ⟨.decode, n⟩ := Option.some_injective _ (hp.symm.trans hpd)
    exact ⟨_, engineStep_decode hp' (hread.trans hT), sameResult_decodeText T s' s⟩

/-! ### The round trip -/

theorem runOperation_of_exec {i : Instr} {s t : State} (h : exec i s = .next t) : runOperation i s = turn .engine t := by
  simp only [runOperation, h]

/-- Settles O52: the second state's input is the encoding, which the decoder undoes (R189). -/
theorem machineRoundTripGivesTheBytesBack : Obligations.MachineRoundTripGivesTheBytesBack := by
  intro s t u v B hwf hb hl hB ht hu hbv hlen hfit hcopy
  have hn : B.length ≤ s.params.inCap := Memory.readBytes_length hB ▸ hl
  have hE := encodeBytes_length_le hwf hn
  have hBlen : B.length ≤ 65536 := (le_encodedLength _).trans (encodeBytes_length B ▸ hE)
  obtain ⟨u', hrun, -, -, hout⟩ := exists_encoded hE hb hl hB
  rw [runOperation_of_exec ht, hu] at hrun
  obtain rfl : u = u' := by simpa using hrun
  have hin : Memory.readBytes v.inMem 0 v.inLen.toNat = some (encodeBytes B) := by
    rw [hlen, ← hout]
    exact Memory.readBytes_congr fun k hk => by rw [Nat.zero_add]; exact hcopy k hk
  have hdone := engineStep_decode (State.accept_pending .decode v.inLen.toNat v) hin
  rw [decodeText_encodeBytes] at hdone
  exact ⟨_, _, (exec_decode hbv).trans (startOp_of_input (hlen ▸ hfit) hin), hdone, rfl, rfl, rfl,
    complete_outLen_toNat _ hBlen, readBytes_complete_storeOut ..⟩

end Sys2Proof.Machine
end

section
/-! PROOFS. Command words and their writes to CMD (30_encoding.md R90-R97, 44_control.md R200, R205): what selects a command, what a
turn that writes its word does, and the obligations on both. -/

namespace Sys2Proof

/-! ### The fields of a command word -/

/-- RSV and OP are the whole word (R90). -/
theorem rsvField_append_opField (w : Word) : rsvField w ++ opField w = w := by
  rw [rsvField, opField, BitVec.extractLsb'_append_extractLsb'_eq_extractLsb' (by omega), BitVec.extractLsb'_eq_self]

theorem eq_encode_iff {w : Word} {i : Instr} : w = encode i ↔ rsvField w = 0 ∧ opField w = opCode i := by
  refine ⟨?_, fun ⟨hrsv, hop⟩ => ?_⟩
  · rintro rfl
    cases i <;> decide
  · rw [← rsvField_append_opField w, hrsv, hop]
    rfl

/-- The decoder's chain of words, by the instructions they encode. -/
theorem decodeCmd_eq (w : Word) :
    decodeCmd w =
      if w = encode .encode then .command .encode
      else if w = encode .decode then .command .decode
      else if w = encode .ack then .command .ack
      else .illegal := rfl

theorem eq_encode_of_decodeCmd {w : Word} {i : Instr} (h : decodeCmd w = .command i) : w = encode i := by
  rw [decodeCmd_eq] at h
  split_ifs at h with hEncode hDecode hAck
  · exact (Decoded.command.inj h) ▸ hEncode
  · exact (Decoded.command.inj h) ▸ hDecode
  · exact (Decoded.command.inj h) ▸ hAck

theorem decodeCmd_eq_command_iff {w : Word} {i : Instr} : decodeCmd w = .command i ↔ w = encode i :=
  ⟨eq_encode_of_decodeCmd, fun h => h ▸ decodeCmd_encode i⟩

theorem decodeCmd_eq_of_fields (w : Word) :
    decodeCmd w =
      if rsvField w ≠ 0 then .illegal
      else if opField w = 1 then .command .encode
      else if opField w = 2 then .command .decode
      else if opField w = 3 then .command .ack
      else .illegal := by
  rw [decodeCmd_eq]
  simp only [eq_encode_iff]
  by_cases hrsv : rsvField w = 0
  · simp only [hrsv, true_and, ne_eq, not_true_eq_false, if_false]
    rfl
  · simp only [hrsv, false_and, if_false, ne_eq, not_false_eq_true, if_true]

theorem wfCommandWord_iff {w : Word} : wfCommandWord w = true ↔ ∃ i, w = encode i := by
  simp only [wfCommandWord, rsvClear, opAssigned, Bool.and_eq_true, Bool.or_eq_true, beq_iff_eq, eq_encode_iff]
  constructor
  · rintro ⟨hrsv, (hop | hop) | hop⟩
    · exact ⟨.encode, hrsv, hop⟩
    · exact ⟨.decode, hrsv, hop⟩
    · exact ⟨.ack, hrsv, hop⟩
  · rintro ⟨i, hrsv, hop⟩
    cases i with
    | encode => exact ⟨hrsv, .inl (.inl hop)⟩
    | decode => exact ⟨hrsv, .inl (.inr hop)⟩
    | ack => exact ⟨hrsv, .inr hop⟩

theorem decodeCmd_ne_illegal_iff {w : Word} : decodeCmd w ≠ .illegal ↔ ∃ i, w = encode i := by
  simp only [← decodeCmd_eq_command_iff]
  cases decodeCmd w <;> simp

/-- Settles O2: a command's word is RSV 0 with the command's OP, and the word check and the decoder accept the commands' words. -/
theorem commandFieldsSelectTheCommand : Obligations.CommandFieldsSelectTheCommand := fun w =>
  ⟨decodeCmd_eq_of_fields w, wfCommandWord_iff.trans decodeCmd_ne_illegal_iff.symm⟩

theorem decodeTableWord_eq_some_iff {nbits w : Nat} {i : Instr} :
    decodeTableWord nbits w = some i ↔ decodeCmd (BitVec.ofNat 32 (w % 2 ^ nbits)) = .command i := by
  unfold decodeTableWord
  split
  · next j hj => simp [hj]
  · next hj => simp [hj]

/-- Settles O3: the table's decoder is the command decoder on the same 32 bits, and the decoder's chain names one word for each
instruction. -/
theorem decodeOfEncodeIsTheInstruction : Obligations.DecodeOfEncodeIsTheInstruction := by
  intro i
  refine ⟨decodeCmd_encode i, decodeTableWord_eq_some_iff.2 ?_, fun w => eq_encode_of_decodeCmd⟩
  rw [Nat.mod_eq_of_lt (encode i).isLt, BitVec.ofNat_toNat, BitVec.setWidth_eq, decodeCmd_encode]

end Sys2Proof

namespace Sys2Proof.Machine

/-! ### A turn that writes CMD -/

theorem step_host {s : State} {a : Access} {es : List Event} (h : s.events = .host a :: es) :
    step s = hostStep a (State.withEvents es s) := by
  simp only [step, h, turn]

theorem step_writeCmd {s : State} {w : Word} {es : List Event} (h : s.events = .host ⟨.write (.b4 w), 0x00#18⟩ :: es) :
    step s = cmdWrite w (State.respond writeDone (State.withEvents es s)) := by
  have hw : commandWord ⟨.write (.b4 w), 0x00#18⟩ = some w := rfl
  rw [step_host h, hostStep_command hw]

theorem cmdWrite_of_command {w : Word} {i : Instr} (s : State) (h : decodeCmd w = .command i) : cmdWrite w s = exec i s := by
  simp only [cmdWrite, h]

theorem cmdWrite_of_illegal {w : Word} (s : State) (h : decodeCmd w = .illegal) : cmdWrite w s = .next (illegalCmd w s) := by
  simp only [cmdWrite, h]

/-- Every command write is dropped while BUSY, legal or not (44_control.md R200). -/
theorem cmdWrite_busy (w : Word) {s : State} (h : s.state = .busy) : cmdWrite w s = .next s := by
  cases hw : decodeCmd w with
  | command i => rw [cmdWrite_of_command s hw, exec_busy i h]
  | illegal => rw [cmdWrite_of_illegal s hw, illegalCmd, if_pos h]

/-- Settles O4: the WRITE is answered, and its word's command runs; `withFetchWord` only puts that WRITE first. -/
theorem stepRunsTheDecodedCommand : Obligations.StepRunsTheDecodedCommand := by
  refine ⟨fun s w i es hev hw => ?_, fun s nbits w i hw => ?_⟩
  · rw [step_writeCmd hev, cmdWrite_of_command _ hw]
    rfl
  · have hev : (s.withFetchWord nbits w).events = .host ⟨.write (.b4 (BitVec.ofNat 32 (w % 2 ^ nbits))), 0x00#18⟩ :: s.events :=
      rfl
    rw [step_writeCmd hev, cmdWrite_of_command _ (decodeTableWord_eq_some_iff.1 hw)]
    rfl

/-- Settles O5: a word that is none of the three decodes as ILLEGAL, whose meaning outside BUSY is error entry. -/
theorem illegalWordsRaiseIllegalCommand : Obligations.IllegalWordsRaiseIllegalCommand := by
  rintro s w es hev hb ⟨hEncode, hDecode, hAck⟩
  rw [step_writeCmd hev, cmdWrite_of_illegal _ (decodeCmd_eq_illegal_of_ne hEncode hDecode hAck)]
  exact congrArg Host.Outcome.next (if_neg hb)

/-- Settles O6: the BUSY check comes before the command's meaning and before the error of an illegal word. -/
theorem commandWritesWhileBusyAreDropped : Obligations.CommandWritesWhileBusyAreDropped := by
  refine ⟨fun s i hb => exec_busy i hb, fun s w es hev hb => ?_⟩
  rw [step_writeCmd hev]
  exact cmdWrite_busy w hb

/-! ### The pseudo-instructions -/

theorem loadBytes_length (i : Nat) (bs : List Byte) : (loadBytes i bs).length = bs.length := by
  induction bs generalizing i with
  | nil => rfl
  | cons b bs ih => rw [loadBytes, List.length_cons, List.length_cons, ih]

theorem loadBytes_getElem? {bs : List Byte} {k : Nat} {b : Byte} (i : Nat) (h : bs[k]? = some b) :
    (loadBytes i bs)[k]? = some (.write (BitVec.ofNat 18 (0x10000 + i + k)) (.b1 b)) := by
  induction bs generalizing i k with
  | nil => simp at h
  | cons c bs ih =>
    rw [loadBytes]
    cases k with
    | zero =>
      obtain rfl : c = b := by simpa using h
      rfl
    | succ k =>
      have hoff : 0x10000 + (i + 1) + k = 0x10000 + i + (k + 1) := by omega
      rw [List.getElem?_cons_succ, ih (i + 1) (by simpa using h), hoff]

/-- Settles O53: LOADB by induction on its bytes, each at the next offset; the others are their expansions. -/
theorem pseudoInstructionsExpandToTheListedAccesses : Obligations.PseudoInstructionsExpandToTheListedAccesses :=
  ⟨fun _ => rfl, fun _ => rfl, rfl, rfl, fun i bs => ⟨loadBytes_length i bs, fun _ _ => loadBytes_getElem? i⟩,
    fun _ _ => rfl⟩

/-- Settles O15: the table's six texts, run through the validator and the decoder. -/
theorem nonCanonicalTextsDecodeAsTheTableSays : Obligations.NonCanonicalTextsDecodeAsTheTableSays := by
  unfold Obligations.NonCanonicalTextsDecodeAsTheTableSays
  decide

end Sys2Proof.Machine
end

section
/-! PROOFS. The other turns: the engine's with nothing pending (60_exceptions.md R240), a reset (70_reset_and_hazards.md R250), and an
access by host address (20_memory.md R60), and the obligations on them. -/

namespace Sys2Proof.Machine

theorem step_of_events_nil {s : State} (h : s.events = []) : step s = engineStep s := by
  simp only [step, h]

/-- Settles O29: with nothing pending the engine has nothing to complete. -/
theorem quiescentMachineStaysAsItIs : Obligations.QuiescentMachineStaysAsItIs := fun _ hp =>
  ⟨engineStep_of_pending_eq_none hp, fun hev => (step_of_events_nil hev).trans (engineStep_of_pending_eq_none hp)⟩

/-- Settles O43: a reset turn answers the reset values whatever the state, and leaves nothing pending for the engine. -/
theorem resetAppliesInEveryState : Obligations.ResetAppliesInEveryState := by
  intro s es hev
  have hstep : step s = .next (State.applyReset (State.withEvents es s)) := by simp only [step, hev, turn]
  exact ⟨_, hstep, rfl, rfl, rfl, rfl, rfl, rfl, rfl, rfl, rfl, rfl, Memory.read_nil, Memory.read_nil,
    engineStep_of_pending_eq_none (State.applyReset_pending _)⟩

theorem apertureOffset_base_add (p : Params) (off : Offset) : apertureOffset p (p.base + off.toNat) = some off := by
  have hoff : off.toNat < apertureSize := off.isLt
  rw [apertureOffset, if_pos ⟨by omega, by omega⟩, Nat.add_sub_cancel_left, BitVec.ofNat_toNat, BitVec.setWidth_eq]

/-- Settles O41: `BASE + off` is in the aperture with offset `off`, and an address outside it has no offset. -/
theorem hostAddressesReachTheirOffset : Obligations.HostAddressesReachTheirOffset := by
  refine ⟨fun s op off es hev => ?_, fun s b es hev hout => ?_⟩
  · simp only [step, hev, turn, State.withEvents, apertureOffset_base_add]
  · have hnone : apertureOffset s.params b.addr = none := if_neg (by simp only [apertureSize]; omega)
    simp only [step, hev, turn, State.withEvents, hnone]

end Sys2Proof.Machine
end

section
/-! PROOFS. The address map (20_memory.md R60, R64, R65; 10_state.md R22): where each access goes, in both directions, and the
obligation on it. -/

namespace Sys2Proof.Machine

/-! ### Registers -/

/-- The offset of a register (10_state.md R22). -/
def regOffset : Reg → Offset
  | .cmd => 0x00#18
  | .status => 0x04#18
  | .inLen => 0x08#18
  | .outLen => 0x0C#18
  | .errInfo => 0x10#18
  | .irqEn => 0x14#18
  | .inCap => 0x18#18
  | .outCap => 0x1C#18

/-- The eight registers in the order of their offsets (10_state.md R22). -/
def Reg.all : List Reg := [.cmd, .status, .inLen, .outLen, .errInfo, .irqEn, .inCap, .outCap]

@[simp] theorem route_regOffset (p : Params) (r : Reg) : route p .w4 (regOffset r) = some (.reg r) := by
  cases r <;> rfl

theorem eq_regOffset_of_regAt {off : Offset} {r : Reg} (h : regAt off = some r) : off = regOffset r := by
  unfold regAt at h
  split_ifs at h with h0 h1 h2 h3 h4 h5 h6 h7 <;> cases h <;> assumption

theorem regOffset_toNat_mod_four (r : Reg) : (regOffset r).toNat % 4 = 0 := by
  cases r <;> rfl

/-- An access that reaches a register is 4 bytes wide at the register's offset (20_memory.md R64). -/
theorem eq_regOffset_of_route {p : Params} {w : Width} {off : Offset} {r : Reg} (h : route p w off = some (.reg r)) :
    w = .w4 ∧ off = regOffset r := by
  obtain ⟨-, hw, hr⟩ := route_reg h
  exact ⟨hw, eq_regOffset_of_regAt hr⟩

/-! ### Windows -/

theorem inWindowAt_iff {base cap o n : Nat} :
    inWindowAt base cap o n = true ↔ base ≤ o ∧ o + n ≤ base + cap ∧ o % n = 0 := by
  simp only [inWindowAt, Bool.and_eq_true, decide_eq_true_eq, and_assoc]

theorem route_eq_inWindow {p : Params} {w : Width} {off : Offset} (hlo : 0x10000 ≤ off.toNat)
    (hhi : off.toNat + widthBytes w ≤ 0x10000 + p.inCap) (hal : off.toNat % widthBytes w = 0) :
    route p w off = some (.inWindow (off.toNat - 0x10000)) := by
  rw [route, if_neg (by omega), if_pos (inWindowAt_iff.2 ⟨hlo, hhi, hal⟩)]

/-- R5's bound on IN_CAP keeps the IN window below the OUT window. -/
theorem route_eq_outWindow {p : Params} {w : Width} {off : Offset} (hp : p.wf = true) (hlo : 0x20000 ≤ off.toNat)
    (hhi : off.toNat + widthBytes w ≤ 0x20000 + p.outCap) (hal : off.toNat % widthBytes w = 0) :
    route p w off = some (.outWindow (off.toNat - 0x20000)) := by
  obtain ⟨-, -, hcap, -⟩ := (Params.wf_iff p).1 hp
  have hin : ¬ inWindowAt 0x10000 p.inCap off.toNat (widthBytes w) = true := fun h => by
    obtain ⟨-, hle, -⟩ := inWindowAt_iff.1 h
    omega
  rw [route, if_neg (by omega), if_neg hin, if_pos (inWindowAt_iff.2 ⟨hlo, hhi, hal⟩)]

theorem widthBytes_w4_iff {w : Width} : widthBytes w = 4 ↔ w = .w4 := by
  cases w <;> simp [widthBytes]

theorem regAt_eq_none_of_misaligned {off : Offset} (h : off.toNat % 4 ≠ 0) : regAt off = none := by
  cases hr : regAt off with
  | none => rfl
  | some r =>
    rw [eq_regOffset_of_regAt hr] at h
    exact absurd (regOffset_toNat_mod_four r) h

/-- What the map leaves out (20_memory.md R64-R66). -/
theorem route_eq_none {p : Params} {w : Width} {off : Offset}
    (hreg : off.toNat < 0x20 → ¬(widthBytes w = 4 ∧ off.toNat % 4 = 0))
    (hin : ¬(0x10000 ≤ off.toNat ∧ off.toNat + widthBytes w ≤ 0x10000 + p.inCap ∧ off.toNat % widthBytes w = 0))
    (hout : ¬(0x20000 ≤ off.toNat ∧ off.toNat + widthBytes w ≤ 0x20000 + p.outCap ∧ off.toNat % widthBytes w = 0)) :
    route p w off = none := by
  unfold route
  split_ifs with hlow hw hi ho
  · rw [regAt_eq_none_of_misaligned fun hal => hreg hlow ⟨widthBytes_w4_iff.2 hw, hal⟩, Option.map_none]
  · rfl
  · exact absurd (inWindowAt_iff.1 hi) hin
  · exact absurd (inWindowAt_iff.1 ho) hout
  · rfl

/-- Settles O32: R22's offsets are the registers', and the windows are disjoint where the parameters are in range. -/
theorem addressMapPlacesRegistersAndWindows : Obligations.AddressMapPlacesRegistersAndWindows := by
  intro p hp
  refine ⟨?_, fun w off hal => ⟨fun hlo hhi => route_eq_inWindow hlo hhi hal, fun hlo hhi => route_eq_outWindow hp hlo hhi hal⟩⟩
  have hregs : Reg.all.map (fun r => route p .w4 (regOffset r)) = Reg.all.map fun r => some (.reg r) :=
    List.map_congr_left fun r _ => route_regOffset p r
  exact hregs

end Sys2Proof.Machine
end

section
/-! PROOFS. The byte lanes of the port (20_memory.md R68): the bytes of a datum in the order of their offsets. -/

namespace Sys2Proof.Machine

theorem extractLsb'_append_low {n : Nat} (x : BitVec n) (y : Byte) : (x ++ y).extractLsb' 0 8 = y := by
  rw [BitVec.extractLsb'_append_eq_of_add_le (by omega), BitVec.extractLsb'_eq_self]

theorem extractLsb'_append_high {n : Nat} (x : BitVec n) (y : Byte) (k : Nat) :
    (x ++ y).extractLsb' (k + 8) 8 = x.extractLsb' k 8 := by
  rw [BitVec.extractLsb'_append_eq_of_le (by omega), Nat.add_sub_cancel]

/-- R68: the byte at `off + k` is bits `[8k+7:8k]` of the data. -/
theorem busBytes_getElem? (d : BusData) {k : Nat} (hk : k < widthBytes (busWidth d)) :
    (busBytes d)[k]? = some ((busWord d).extractLsb' (8 * k) 8) := by
  cases d with
  | b1 d =>
    obtain rfl : k = 0 := Nat.lt_one_iff.1 hk
    rw [busWord, BitVec.extractLsb'_setWidth_of_le (by omega), BitVec.extractLsb'_eq_self]
    rfl
  | b2 d =>
    have hk : k < 2 := hk
    rw [busWord, BitVec.extractLsb'_setWidth_of_le (by omega)]
    interval_cases k <;> rfl
  | b4 d =>
    have hk : k < 4 := hk
    interval_cases k <;> rfl

@[simp] theorem busWidth_busOfBytes (w : Width) (bs : List Byte) : busWidth (busOfBytes w bs) = w := by
  cases w <;> rfl

theorem busBytes_busOfBytes {w : Width} {bs : List Byte} (h : bs.length = widthBytes w) :
    busBytes (busOfBytes w bs) = bs := by
  cases w with
  | w1 =>
    obtain ⟨a, rfl⟩ := List.length_eq_one_iff.1 h
    rfl
  | w2 =>
    obtain ⟨a, b, rfl⟩ := List.length_eq_two.1 h
    exact congrArg₂ (fun x y => [x, y]) (extractLsb'_append_low b a)
      ((extractLsb'_append_high b a 0).trans BitVec.extractLsb'_eq_self)
  | w4 =>
    match bs, h with
    | [a, b, c, d], _ =>
      have ha : (d ++ c ++ b ++ a).extractLsb' 0 8 = a := extractLsb'_append_low _ a
      have hb : (d ++ c ++ b ++ a).extractLsb' 8 8 = b :=
        (extractLsb'_append_high _ a 0).trans (extractLsb'_append_low _ b)
      have hc : (d ++ c ++ b ++ a).extractLsb' 16 8 = c :=
        (extractLsb'_append_high _ a 8).trans ((extractLsb'_append_high _ b 0).trans (extractLsb'_append_low d c))
      have hd : (d ++ c ++ b ++ a).extractLsb' 24 8 = d :=
        (extractLsb'_append_high _ a 16).trans ((extractLsb'_append_high _ b 8).trans
          ((extractLsb'_append_high d c 0).trans BitVec.extractLsb'_eq_self))
      exact congrArg₂ (· :: ·) ha (congrArg₂ (· :: ·) hb (congrArg₂ (fun x y => [x, y]) hc hd))

@[simp] theorem busWidth_busZero (w : Width) : busWidth (busZero w) = w := by
  cases w <;> rfl

@[simp] theorem busWord_busZero (w : Width) : busWord (busZero w) = 0 := by
  cases w <;> rfl

end Sys2Proof.Machine
end

section
/-! PROOFS. The host port (20_memory.md R61-R73): what each kind of access answers and changes, and the obligations on it. -/

namespace Sys2Proof.Machine

/-! ### Accesses and command words -/

@[simp] theorem commandWord_read (w : Width) (off : Offset) : commandWord ⟨.read w, off⟩ = none := rfl

theorem commandWord_eq_some_iff {a : Access} {w : Word} : commandWord a = some w ↔ a = ⟨.write (.b4 w), 0x00#18⟩ := by
  obtain ⟨op, off⟩ := a
  unfold commandWord
  split
  · next v hop =>
    obtain rfl : op = .write (.b4 v) := hop
    simp [and_comm]
  · next hop =>
    simp only [reduceCtorEq, Access.mk.injEq, false_iff, not_and]
    exact fun h => absurd h (hop w)

theorem commandWord_of_off_ne {a : Access} (h : a.off ≠ 0x00#18) : commandWord a = none := by
  cases hw : commandWord a with
  | none => rfl
  | some w =>
    rw [commandWord_eq_some_iff.1 hw] at h
    exact absurd rfl h

/-- A command write is routed to CMD, so an access with no route is none. -/
theorem commandWord_of_route_eq_none {p : Params} {a : Access} (h : route p (accessWidth a.op) a.off = none) :
    commandWord a = none := by
  cases hw : commandWord a with
  | none => rfl
  | some w =>
    rw [commandWord_eq_some_iff.1 hw] at h
    exact absurd (h.symm.trans (route_regOffset p .cmd)) (by simp)

/-! ### An access that is no command write, by what the address map and the target answer -/

theorem portAccess_busError {a : Access} {s : State} (hr : route s.params (accessWidth a.op) a.off = none) :
    portAccess a s = .next (State.respond (busError a.op) s) := by
  simp only [portAccess, hr]

theorem portAccess_read {w : Width} {off : Offset} {s : State} {tg : Target} {d : BusData}
    (hr : route s.params w off = some tg) (hd : readTarget w s tg = some d) :
    portAccess ⟨.read w, off⟩ s = .next (State.respond (readDone d) s) := by
  simp only [portAccess, accessWidth, hr, hd]

theorem portAccess_read_unwritten {w : Width} {off : Offset} {s : State} {tg : Target}
    (hr : route s.params w off = some tg) (hd : readTarget w s tg = none) :
    portAccess ⟨.read w, off⟩ s = .fault .unwrittenRead := by
  simp only [portAccess, accessWidth, hr, hd]

theorem portAccess_write {d : BusData} {off : Offset} {s : State} {tg : Target}
    (hr : route s.params (busWidth d) off = some tg) :
    portAccess ⟨.write d, off⟩ s = .next (State.respond writeDone (writeTarget d s tg)) := by
  simp only [portAccess, accessWidth, hr]

theorem step_port {s : State} {a : Access} {es : List Event} (hev : s.events = .host a :: es) (hw : commandWord a = none) :
    step s = portAccess a (State.withEvents es s) := by
  rw [step_host hev, hostStep_port hw]

/-- No READ looks at the turns to come. -/
theorem readTarget_withEvents (w : Width) (es : List Event) (s : State) (tg : Target) :
    readTarget w (State.withEvents es s) tg = readTarget w s tg := rfl

theorem step_read {s : State} {w : Width} {off : Offset} {es : List Event} {tg : Target} {d : BusData}
    (hev : s.events = .host ⟨.read w, off⟩ :: es) (hr : route s.params w off = some tg) (hd : readTarget w s tg = some d) :
    step s = .next (State.respond (readDone d) (State.withEvents es s)) :=
  (step_port hev (commandWord_read w off)).trans (portAccess_read hr hd)

theorem step_read_unwritten {s : State} {w : Width} {off : Offset} {es : List Event} {tg : Target}
    (hev : s.events = .host ⟨.read w, off⟩ :: es) (hr : route s.params w off = some tg) (hd : readTarget w s tg = none) :
    step s = .fault .unwrittenRead :=
  (step_port hev (commandWord_read w off)).trans (portAccess_read_unwritten hr hd)

theorem step_write {s : State} {d : BusData} {off : Offset} {es : List Event} {tg : Target}
    (hev : s.events = .host ⟨.write d, off⟩ :: es) (hoff : off ≠ 0x00#18) (hr : route s.params (busWidth d) off = some tg) :
    step s = .next (State.respond writeDone (writeTarget d (State.withEvents es s) tg)) :=
  (step_port hev (commandWord_of_off_ne hoff)).trans (portAccess_write hr)

/-- Settles O31: the three conditions leave the access without a route, which is a bus error. -/
theorem malformedAccessesGetABusError : Obligations.MalformedAccessesGetABusError := by
  rintro s a es _ _ hev rfl rfl hreg hin hout
  have hr : route s.params (accessWidth a.op) a.off = none := route_eq_none hreg hin hout
  rw [step_port hev (commandWord_of_route_eq_none hr), portAccess_busError (s := State.withEvents es s) hr]
  obtain ⟨op, off⟩ := a
  rcases op with (_ | _ | _) | d <;> rfl

/-! ### Registers -/

theorem statusWord_eq (s : State) : s.statusWord = BitVec.ofNat 32 (16 * s.err.code.toNat + s.state.code.toNat) := by
  refine BitVec.eq_of_toNat_eq ?_
  have herr := s.err.code.isLt
  have hstate := s.state.code.isLt
  simp only [State.statusWord, toNat_append_eq, BitVec.toNat_ofNat]
  omega

theorem irqEnWord_eq (s : State) : s.irqEnWord = if s.ie then 1#32 else 0#32 := by
  unfold State.irqEnWord
  cases s.ie <;> rfl

theorem step_readReg {s : State} {es : List Event} (r : Reg) (hev : s.events = .host ⟨.read .w4, regOffset r⟩ :: es) :
    step s = .next { s with events := es, response := some ⟨false, some (.b4 (readReg s r))⟩ } :=
  step_read hev (route_regOffset _ r) rfl

theorem regOffset_ne_zero {r : Reg} (hr : r ≠ .cmd) : regOffset r ≠ 0x00#18 := by
  cases r with
  | cmd => exact absurd rfl hr
  | status | inLen | outLen | errInfo | irqEn | inCap | outCap => decide

theorem step_writeReg {s : State} {v : Word} {es : List Event} (r : Reg) (hr : r ≠ .cmd)
    (hev : s.events = .host ⟨.write (.b4 v), regOffset r⟩ :: es) :
    step s = .next (State.respond writeDone (writeReg v (State.withEvents es s) r)) := by
  exact step_write hev (regOffset_ne_zero hr) (route_regOffset _ r)

/-- Settles O33: each listed pair is a register's offset and what a READ of that register answers. -/
theorem registerReadsReturnTheirValues : Obligations.RegisterReadsReturnTheirValues := by
  refine ⟨rfl, rfl, fun s off v es hev hmem => ?_⟩
  rw [← statusWord_eq, ← irqEnWord_eq] at hmem
  have hrows : (off, v) ∈ Reg.all.map fun r => (regOffset r, readReg s r) := hmem
  obtain ⟨r, -, hr⟩ := List.mem_map.1 hrows
  obtain ⟨rfl, rfl⟩ := Prod.mk.inj hr
  exact step_readReg r hev

theorem writeReg_inLen {w : Word} {s : State} (hb : s.state ≠ .busy) : writeReg w s .inLen = State.setInLen w s := if_neg hb

theorem writeReg_inLen_busy {w : Word} {s : State} (hb : s.state = .busy) : writeReg w s .inLen = s := if_pos hb

/-- Settles O34: IN_LEN is guarded by BUSY, IRQ_EN is not. -/
theorem lengthAndEnableWritesStore : Obligations.LengthAndEnableWritesStore := by
  refine fun s v es => ⟨fun hev => ⟨fun hb => ?_, fun hb => ?_⟩, fun hev => ?_⟩
  · rw [step_writeReg .inLen (by decide) hev, writeReg_inLen (s := State.withEvents es s) hb]
    rfl
  · rw [step_writeReg .inLen (by decide) hev, writeReg_inLen_busy (s := State.withEvents es s) hb]
    rfl
  · rw [step_writeReg .irqEn (by decide) hev]
    rfl

/-! ### WRITEs of the windows -/

theorem writeTarget_inWindow {d : BusData} {s : State} {i : Nat} (hb : s.state ≠ .busy) :
    writeTarget d s (.inWindow i) = State.storeIn i (busBytes d) s := if_neg hb

theorem writeTarget_inWindow_busy {d : BusData} {s : State} {i : Nat} (hb : s.state = .busy) :
    writeTarget d s (.inWindow i) = s := if_pos hb

theorem ne_zero_of_le_toNat {off : Offset} {n : Nat} (hn : 0 < n) (h : n ≤ off.toNat) : off ≠ 0x00#18 := by
  rintro rfl
  exact absurd hn (Nat.not_lt.2 h)

/-- The step of a WRITE inside the IN window. -/
theorem step_write_inWindow {s : State} {d : BusData} {off : Offset} {es : List Event} {i : Nat}
    (hev : s.events = .host ⟨.write d, off⟩ :: es) (hoff : off.toNat = 0x10000 + i)
    (hal : off.toNat % widthBytes (busWidth d) = 0) (hi : i + widthBytes (busWidth d) ≤ s.params.inCap) :
    step s = .next (State.respond writeDone (writeTarget d (State.withEvents es s) (.inWindow i))) := by
  have hr := route_eq_inWindow (p := s.params) (w := busWidth d) (off := off) (by omega) (by omega) hal
  rw [hoff, Nat.add_sub_cancel_left] at hr
  exact step_write hev (ne_zero_of_le_toNat (n := 0x10000) (by omega) (by omega)) hr

/-- Settles O36: the WRITE is R70's `MemWrite` of the datum's byte lanes outside BUSY, and nothing in it. -/
theorem inputWritesAreLittleEndian : Obligations.InputWritesAreLittleEndian := by
  rintro s d off es i _ hev rfl hoff hal hi
  have hstep := step_write_inWindow hev hoff hal hi
  refine ⟨fun hb => ?_, fun hb => ?_⟩
  · rw [writeTarget_inWindow (s := State.withEvents es s) hb] at hstep
    refine ⟨Memory.writeBytes s.inMem i (busBytes d), hstep, fun k hk => ?_, fun a ha => ?_⟩
    · exact Memory.read_writeBytes_inside _ i k _ _ (busBytes_getElem? d hk)
    · rcases ha with ha | ha
      · exact Memory.read_writeBytes_below _ i a _ ha
      · exact Memory.read_writeBytes_above _ i a _ (busBytes_length d ▸ ha)
  · rw [writeTarget_inWindow_busy (s := State.withEvents es s) hb] at hstep
    exact hstep

/-- Settles O35: every item of R67 is a WRITE whose target's meaning is to leave the state as it is. -/
theorem ignoredWritesSucceedAndChangeNothing : Obligations.IgnoredWritesSucceedAndChangeNothing := by
  refine ⟨fun s v off es hev hmem => ?_, fun s v es hev hie => ?_, fun s d off es hev hwf hlo hhi hal => ?_,
    fun s d off es hev hb hcase => ?_, fun s es hev => step_readReg .cmd hev⟩
  · simp only [List.mem_cons, List.not_mem_nil, or_false] at hmem
    rcases hmem with rfl | rfl | rfl | rfl | rfl
    · exact step_writeReg .status (by decide) hev
    · exact step_writeReg .outLen (by decide) hev
    · exact step_writeReg .errInfo (by decide) hev
    · exact step_writeReg .inCap (by decide) hev
    · exact step_writeReg .outCap (by decide) hev
  · rw [step_writeReg .irqEn (by decide) hev, writeReg, hie]
    rfl
  · exact step_write hev (ne_zero_of_le_toNat (n := 0x20000) (by omega) hlo) (route_eq_outWindow hwf hlo hhi hal)
  · rcases hcase with ⟨hd, rfl | rfl⟩ | ⟨hlo, hhi, hal⟩
    · rw [hd] at hev
      rw [step_writeCmd hev]
      exact cmdWrite_busy _ hb
    · rw [hd] at hev
      rw [step_writeReg .inLen (by decide) hev, writeReg_inLen_busy (s := State.withEvents es s) hb]
      rfl
    · obtain ⟨i, hoff⟩ := Nat.exists_eq_add_of_le hlo
      rw [step_write_inWindow hev hoff hal (by omega), writeTarget_inWindow_busy (s := State.withEvents es s) hb]
      rfl

/-! ### READs -/

theorem Memory.readBytes_eq_none_iff {m : Memory} {i n : Nat} :
    Memory.readBytes m i n = none ↔ ∃ k < n, Memory.read m (i + k) = none := by
  rw [← Option.not_isSome_iff_eq_none, Memory.readBytes_isSome_iff]
  simp

/-- The datum of written bytes has them as its byte lanes (20_memory.md R68). -/
theorem exists_busOfBytes {m : Memory} {i : Nat} {w : Width} (h : ∀ k < widthBytes w, Memory.read m (i + k) ≠ none) :
    ∃ d, (Memory.readBytes m i (widthBytes w)).map (busOfBytes w) = some d ∧ busWidth d = w ∧
      ∀ k < widthBytes w, Memory.read m (i + k) = some ((busWord d).extractLsb' (8 * k) 8) := by
  obtain ⟨L, hL⟩ := Option.isSome_iff_exists.1 ((Memory.readBytes_isSome_iff m i _).2 h)
  obtain ⟨hlen, hread⟩ := (Memory.readBytes_eq_some_iff ..).1 hL
  refine ⟨busOfBytes w L, by rw [hL, Option.map_some], busWidth_busOfBytes w L, fun k hk => ?_⟩
  rw [hread k hk, ← busBytes_getElem? _ (by rwa [busWidth_busOfBytes]), busBytes_busOfBytes hlen]

/-- Settles O37: the map takes the access to IN_MEM, whose bytes are the lanes of the answer. -/
theorem inputReadsReturnTheBytes : Obligations.InputReadsReturnTheBytes := by
  intro s w off es i hev hoff hal hi
  have hr : route s.params w off = some (.inWindow i) := by
    rw [route_eq_inWindow (by omega) (by omega) hal, hoff, Nat.add_sub_cancel_left]
  refine ⟨fun hwritten => ?_, fun hun => ?_⟩
  · obtain ⟨d, hd, hw, hlanes⟩ := exists_busOfBytes hwritten
    exact ⟨d, hw, step_read hev hr hd, hlanes⟩
  · exact step_read_unwritten hev hr (Option.map_eq_none_iff.2 (Memory.readBytes_eq_none_iff.2 hun))

theorem readTarget_outWindow_busy {w : Width} {s : State} {j : Nat} (hb : s.state = .busy) :
    readTarget w s (.outWindow j) = some (busZero w) := if_pos hb

theorem readTarget_outWindow {w : Width} {s : State} {j : Nat} (hb : s.state ≠ .busy) :
    readTarget w s (.outWindow j) = (Memory.readBytes s.outMem j (widthBytes w)).map (busOfBytes w) := if_neg hb

/-- Settles O38: as for IN_MEM, with the OUT window closed to the host in BUSY. -/
theorem outputReadsReturnTheBytesOutsideBusy : Obligations.OutputReadsReturnTheBytesOutsideBusy := by
  intro s w off es j hev hwf hoff hal hj
  have hr : route s.params w off = some (.outWindow j) := by
    rw [route_eq_outWindow hwf (by omega) (by omega) hal, hoff, Nat.add_sub_cancel_left]
  refine ⟨fun hb => ?_, fun hb hwritten => ?_, fun hb hun => ?_⟩
  · exact ⟨busZero w, busWidth_busZero w, busWord_busZero w, step_read hev hr (readTarget_outWindow_busy hb)⟩
  · obtain ⟨d, hd, hw, hlanes⟩ := exists_busOfBytes hwritten
    exact ⟨d, hw, step_read hev hr ((readTarget_outWindow hb).trans hd), hlanes⟩
  · refine step_read_unwritten hev hr ?_
    rw [readTarget_outWindow hb, Option.map_eq_none_iff, Memory.readBytes_eq_none_iff]
    exact hun

/-- Settles O39: of the three things an access can do, a READ can only be answered or get a bus error, which carries data too. -/
theorem readsHaveNoSideEffect : Obligations.ReadsHaveNoSideEffect := by
  intro s t w off es hev ht
  rw [step_port hev (commandWord_read w off)] at ht
  rcases portAccess_next ht with ⟨-, rfl⟩ | ⟨w', tg, d, -, -, -, rfl⟩ | ⟨d, tg, hop, -, -⟩
  · exact ⟨_, rfl, by simp [busError]⟩
  · exact ⟨_, rfl, by simp [readDone]⟩
  · cases hop

end Sys2Proof.Machine
end

section
/-! PROOFS. Everything a step can do, once (20_memory.md R75, 44_control.md R206): the effect of the engine's turn, of a command write
and of any other access, and which turn has it. The whole-machine obligations split on these effects. -/

namespace Sys2Proof.Machine

/-! ### The effects -/

/-- The engine's turn: nothing, a completion in DONE with result `L`, or one of the validator's two errors. -/
inductive EngineEffect (s : State) : State → Prop
  | quiet (hp : s.pending = none) : EngineEffect s s
  | completed (hp : s.pending ≠ none) (L : List Byte) : EngineEffect s (State.complete L.length (State.storeOut L s))
  | failed (hp : s.pending ≠ none) (e : ErrCode) (he : e ≠ .unmappable) (w : Word) :
      EngineEffect s (State.raiseInEngine e w s)

/-- A command write whose word the decoder answers with `c` (44_control.md R200-R205). -/
inductive CommandEffect (s : State) : Decoded → State → Prop
  | dropped (c : Decoded) (hb : s.state = .busy) : CommandEffect s c s
  | illegal (hb : s.state ≠ .busy) (w : Word) : CommandEffect s .illegal (State.raiseError .illegalCmd w s)
  | paramError {i : Instr} {m : Mode} (hi : startMode i = some m) (hb : s.state ≠ .busy)
      (hcap : s.params.inCap < s.inLen.toNat) : CommandEffect s (.command i) (State.raiseError .param s.inLen s)
  | accepted {i : Instr} {m : Mode} (hi : startMode i = some m) (hb : s.state ≠ .busy)
      (hl : s.inLen.toNat ≤ s.params.inCap) : CommandEffect s (.command i) (State.accept m s.inLen.toNat s)
  | acknowledged (hs : s.state = .done ∨ s.state = .error) : CommandEffect s (.command .ack) (State.acknowledge s)
  | ackInIdle (hs : s.state = .idle) : CommandEffect s (.command .ack) s

/-- Any other access, apart from its answer (20_memory.md R67, R69). -/
inductive PortEffect (s : State) : Access → State → Prop
  | unchanged (a : Access) : PortEffect s a s
  | storeIn {d : BusData} {off : Offset} {i : Nat} (hoff : off.toNat = 0x10000 + i)
      (hi : i + widthBytes (busWidth d) ≤ s.params.inCap) (hb : s.state ≠ .busy) :
      PortEffect s ⟨.write d, off⟩ (State.storeIn i (busBytes d) s)
  | setInLen (v : Word) (hb : s.state ≠ .busy) : PortEffect s ⟨.write (.b4 v), 0x08#18⟩ (State.setInLen v s)
  | setIe (v : Word) : PortEffect s ⟨.write (.b4 v), 0x14#18⟩ (State.setIe (v.getLsbD 0) s)

/-! ### Each operation has its effect -/

theorem engineStep_effect {s t : State} (h : engineStep s = .next t) : EngineEffect s t := by
  rcases engineStep_next h with ⟨hp, rfl⟩ | ⟨n, B, hp, -, rfl⟩ | ⟨n, T, hp, -, rfl⟩
  · exact .quiet hp
  · exact .completed (by simp [hp]) _
  · rcases decodeText_cases T s with ⟨S, D, -, -, -, he⟩ | ⟨L, -, he⟩ | ⟨c, -, he⟩ <;> rw [he]
    · exact .completed (by simp [hp]) D
    · exact .failed (by simp [hp]) .length (by decide) _
    · exact .failed (by simp [hp]) .invalidChar (by decide) _

theorem illegalCmd_effect (w : Word) (s : State) : CommandEffect s .illegal (illegalCmd w s) := by
  unfold illegalCmd
  split
  · next hb => exact .dropped _ hb
  · next hb => exact .illegal hb w

theorem exec_effect {i : Instr} {s t : State} (h : exec i s = .next t) : CommandEffect s (.command i) t := by
  rcases exec_next h with ⟨hb, rfl⟩ | ⟨m, hi, hb, hcap, rfl⟩ | ⟨m, hi, hb, hl, -, rfl⟩ | ⟨rfl, hs, rfl⟩ | ⟨rfl, hs, rfl⟩
  · exact .dropped _ hb
  · exact .paramError hi hb hcap
  · exact .accepted hi hb hl
  · exact .acknowledged hs
  · exact .ackInIdle hs

theorem cmdWrite_effect {w : Word} {s t : State} (h : cmdWrite w s = .next t) : CommandEffect s (decodeCmd w) t := by
  rcases cmdWrite_next h with ⟨i, hw, hx⟩ | ⟨hw, rfl⟩ <;> rw [hw]
  · exact exec_effect hx
  · exact illegalCmd_effect w s

theorem eq_b4_of_busWidth {d : BusData} (h : busWidth d = .w4) : d = .b4 (busWord d) := by
  cases d with
  | b1 d => cases h
  | b2 d => cases h
  | b4 d => rfl

theorem writeTarget_effect {s : State} {d : BusData} {off : Offset} {tg : Target}
    (hr : route s.params (busWidth d) off = some tg) : PortEffect s ⟨.write d, off⟩ (writeTarget d s tg) := by
  rcases writeTarget_cases d s tg with he | ⟨i, rfl, hb, he⟩ | ⟨rfl, hb, he⟩ | ⟨rfl, he⟩ <;> rw [he]
  · exact .unchanged _
  · obtain ⟨hoff, hi, -⟩ := route_inWindow hr
    exact .storeIn hoff hi hb
  · obtain ⟨hw, rfl⟩ := eq_regOffset_of_route hr
    rw [eq_b4_of_busWidth hw]
    exact .setInLen _ hb
  · obtain ⟨hw, rfl⟩ := eq_regOffset_of_route hr
    rw [eq_b4_of_busWidth hw]
    exact .setIe _

theorem portAccess_effect {a : Access} {s t : State} (h : portAccess a s = .next t) :
    ∃ r u, PortEffect s a u ∧ t = State.respond r u := by
  rcases portAccess_next h with ⟨-, rfl⟩ | ⟨w, tg, d, -, -, -, rfl⟩ | ⟨d, tg, hop, hr, rfl⟩
  · exact ⟨_, _, .unchanged a, rfl⟩
  · exact ⟨_, _, .unchanged a, rfl⟩
  · obtain ⟨op, off⟩ := a
    obtain rfl : op = .write d := hop
    exact ⟨_, _, writeTarget_effect hr, rfl⟩

/-! ### The step, by the turn that is next -/

/-- The state with the next turn taken. -/
abbrev State.taken (s : State) : State := State.withEvents s.events.tail s

/-- A command write's WRITE is answered before the command runs (44_control.md R200). -/
abbrev State.answered (s : State) : State := State.respond writeDone s.taken

theorem events_of_resetNext {s : State} (h : s.resetNext = true) : ∃ es, s.events = .reset :: es := by
  unfold State.resetNext at h
  split at h
  · next es hev => exact ⟨es, hev⟩
  · cases h

theorem step_of_resetNext {s : State} (h : s.resetNext = true) : step s = .next (State.applyReset s.taken) := by
  obtain ⟨es, hev⟩ := events_of_resetNext h
  simp only [step, hev, turn, State.taken, List.tail_cons]

theorem step_of_engineNext {s : State} (h : s.engineNext = true) : step s = engineStep s.taken := by
  rcases step_eq s with ⟨-, -, he⟩ | ⟨hr, -, -⟩ | ⟨hn, -, -, -⟩ | ⟨a, hn, -, -, -⟩
  · exact he
  · obtain ⟨es, hev⟩ := events_of_resetNext hr
    simp [State.engineNext, hev] at h
  · simp [h] at hn
  · simp [h] at hn

theorem step_of_nextAccess {s : State} {a : Access} (h : s.nextAccess = some a) : step s = hostStep a s.taken := by
  rcases step_eq s with ⟨-, hn, -⟩ | ⟨-, hn, -⟩ | ⟨-, -, hn, -⟩ | ⟨b, -, -, hb, he⟩
  · simp [h] at hn
  · simp [h] at hn
  · simp [h] at hn
  · obtain rfl : a = b := Option.some_injective _ (h.symm.trans hb)
    exact he

theorem step_engine_effect {s t : State} (hn : s.engineNext = true) (ht : step s = .next t) : EngineEffect s.taken t :=
  engineStep_effect (step_of_engineNext hn ▸ ht)

theorem step_reset_effect {s t : State} (hn : s.resetNext = true) (ht : step s = .next t) : t = State.applyReset s.taken := by
  rw [step_of_resetNext hn] at ht
  simpa using ht.symm

theorem step_command_effect {s t : State} {a : Access} {w : Word} (ha : s.nextAccess = some a) (hw : commandWord a = some w)
    (ht : step s = .next t) : CommandEffect s.answered (decodeCmd w) t :=
  cmdWrite_effect (hostStep_command hw ▸ step_of_nextAccess ha ▸ ht)

theorem step_port_effect {s t : State} {a : Access} (ha : s.nextAccess = some a) (hw : commandWord a = none)
    (ht : step s = .next t) : ∃ r u, PortEffect s.taken a u ∧ t = State.respond r u :=
  portAccess_effect (hostStep_port hw ▸ step_of_nextAccess ha ▸ ht)

/-- The effect of a step: of the engine's turn, of a reset, of an access outside the aperture (none), of a command write, or of
another access. -/
inductive StepEffect (s t : State) : Prop
  | engine (hn : s.engineNext = true) (he : EngineEffect s.taken t)
  | reset (hn : s.resetNext = true) (he : t = State.applyReset s.taken)
  | outside (he : t = s.taken)
  | command (a : Access) (w : Word) (c : Decoded) (ha : s.nextAccess = some a) (hw : commandWord a = some w)
      (hc : decodeCmd w = c) (he : CommandEffect s.answered c t)
  | port (a : Access) (r : Response) (u : State) (ha : s.nextAccess = some a) (hw : commandWord a = none)
      (he : PortEffect s.taken a u) (ht : t = State.respond r u)

theorem step_effect {s t : State} (ht : step s = .next t) : StepEffect s t := by
  rcases step_eq s with ⟨hn, -, -⟩ | ⟨hn, -, -⟩ | ⟨-, -, -, he⟩ | ⟨a, -, -, ha, -⟩
  · exact .engine hn (step_engine_effect hn ht)
  · exact .reset hn (step_reset_effect hn ht)
  · exact .outside (Host.Outcome.next.inj (ht.symm.trans he))
  · cases hw : commandWord a with
    | some w => exact .command a w _ ha hw rfl (step_command_effect ha hw ht)
    | none =>
      obtain ⟨r, u, he, hu⟩ := step_port_effect ha hw ht
      exact .port a r u ha hw he hu

end Sys2Proof.Machine
end

section
/-! PROOFS. What each effect leaves alone and where it leaves STATE and `irq` (44_control.md R206, 60_exceptions.md R231), and the
whole-machine obligations: the transition table, the writers of each field, the interrupt, the lock of BUSY. -/

namespace Sys2Proof.Machine

/-! ### The engine's turn -/

theorem EngineEffect.eq_of_not_pending {s t : State} (he : EngineEffect s t) (hp : s.pending = none) : t = s := by
  cases he with
  | quiet => rfl
  | completed hp' | failed hp' => exact absurd hp hp'

theorem EngineEffect.done_or_error {s t : State} (he : EngineEffect s t) (hp : s.pending ≠ none) :
    t.state = .done ∨ t.state = .error := by
  cases he with
  | quiet hp' => exact absurd hp' hp
  | completed => exact .inl rfl
  | failed => exact .inr rfl

/-- The engine writes neither the parameters, nor what only the host writes (20_memory.md R70). -/
theorem EngineEffect.frame {s t : State} (he : EngineEffect s t) :
    t.params = s.params ∧ t.inMem = s.inMem ∧ t.inLen = s.inLen ∧ t.ie = s.ie := by
  cases he <;> exact ⟨rfl, rfl, rfl, rfl⟩

/-- Only a completion in DONE writes OUT_MEM (43_decoder.md R185, 60_exceptions.md R225). -/
theorem EngineEffect.outMem_ne {s t : State} (he : EngineEffect s t) (h : t.outMem ≠ s.outMem) :
    s.pending ≠ none ∧ t.state = .done := by
  cases he with
  | quiet => exact absurd rfl h
  | completed hp => exact ⟨hp, rfl⟩
  | failed => exact absurd rfl h

theorem EngineEffect.err_ne_unmappable {s t : State} (he : EngineEffect s t) (h : s.err ≠ .unmappable) :
    t.err ≠ .unmappable := by
  cases he with
  | quiet => exact h
  | completed => simp
  | failed _ e hne => exact hne

theorem EngineEffect.irq_eq {s t : State} (he : EngineEffect s t) (hp : s.pending ≠ none) : t.irq = s.ie := by
  obtain ⟨-, -, -, hie⟩ := he.frame
  rw [State.irq_of_done_or_error (he.done_or_error hp), hie]

/-! ### A command write -/

theorem CommandEffect.frame {s t : State} {c : Decoded} (he : CommandEffect s c t) :
    t.params = s.params ∧ t.inMem = s.inMem ∧ t.outMem = s.outMem ∧ t.inLen = s.inLen ∧ t.ie = s.ie := by
  cases he <;> exact ⟨rfl, rfl, rfl, rfl, rfl⟩

theorem CommandEffect.eq_of_busy {s t : State} {c : Decoded} (he : CommandEffect s c t) (hb : s.state = .busy) : t = s := by
  cases he with
  | dropped | ackInIdle => rfl
  | illegal hb' | paramError _ hb' | accepted _ hb' => exact absurd hb hb'
  | acknowledged hs => simp [hb] at hs

theorem CommandEffect.state_ack {s t : State} (he : CommandEffect s (.command .ack) t) (hb : s.state ≠ .busy) :
    t.state = .idle := by
  cases he with
  | dropped _ hb' => exact absurd hb' hb
  | paramError hi | accepted hi => cases hi
  | acknowledged => rfl
  | ackInIdle hs => exact hs

theorem CommandEffect.state_illegal {s t : State} (he : CommandEffect s .illegal t) (hb : s.state ≠ .busy) :
    t.state = .error := by
  cases he with
  | dropped _ hb' => exact absurd hb' hb
  | illegal => rfl

theorem CommandEffect.state_start {s t : State} {i : Instr} {m : Mode} (he : CommandEffect s (.command i) t)
    (hi : startMode i = some m) (hb : s.state ≠ .busy) :
    t.state = if s.inLen.toNat ≤ s.params.inCap then .busy else .error := by
  cases he with
  | dropped _ hb' => exact absurd hb' hb
  | paramError _ _ hcap => rw [if_neg (Nat.not_le.2 hcap)]; rfl
  | accepted _ _ hl => rw [if_pos hl]; rfl
  | acknowledged | ackInIdle => cases hi

theorem CommandEffect.err_ne_unmappable {s t : State} {c : Decoded} (he : CommandEffect s c t) (h : s.err ≠ .unmappable) :
    t.err ≠ .unmappable := by
  cases he with
  | dropped | ackInIdle => exact h
  | illegal | paramError | accepted | acknowledged => simp

theorem startMode_eq_some {i : Instr} {m : Mode} (h : startMode i = some m) : i = .encode ∨ i = .decode := by
  cases i with
  | encode => exact .inl rfl
  | decode => exact .inr rfl
  | ack => cases h

/-! ### Any other access -/

theorem PortEffect.frame {s u : State} {a : Access} (he : PortEffect s a u) :
    u.params = s.params ∧ u.outMem = s.outMem ∧ u.state = s.state ∧ u.err = s.err ∧ u.errInfo = s.errInfo ∧
      u.outLen = s.outLen ∧ u.pending = s.pending := by
  cases he <;> exact ⟨rfl, rfl, rfl, rfl, rfl, rfl, rfl⟩

theorem PortEffect.inMem_ne {s u : State} {a : Access} (he : PortEffect s a u) (h : u.inMem ≠ s.inMem) :
    ∃ (d : BusData) (off : Offset), a = ⟨.write d, off⟩ ∧ 0x10000 ≤ off.toNat ∧
      off.toNat + widthBytes (busWidth d) ≤ 0x10000 + s.params.inCap ∧ s.state ≠ .busy := by
  cases he with
  | unchanged | setInLen | setIe => exact absurd rfl h
  | storeIn hoff hi hb => exact ⟨_, _, rfl, by omega, by omega, hb⟩

theorem PortEffect.inLen_ne {s u : State} {a : Access} (he : PortEffect s a u) (h : u.inLen ≠ s.inLen) :
    a = ⟨.write (.b4 u.inLen), 0x08#18⟩ ∧ s.state ≠ .busy := by
  cases he with
  | unchanged | storeIn | setIe => exact absurd rfl h
  | setInLen v hb => exact ⟨rfl, hb⟩

theorem PortEffect.ie_ne {s u : State} {a : Access} (he : PortEffect s a u) (h : u.ie ≠ s.ie) :
    ∃ v : Word, a = ⟨.write (.b4 v), 0x14#18⟩ ∧ u.ie = v.getLsbD 0 := by
  cases he with
  | unchanged | storeIn | setInLen => exact absurd rfl h
  | setIe v => exact ⟨v, rfl, rfl⟩

/-! ### UNMAPPABLE, the transition table and the writers -/

/-- Settles O30: no effect of a step raises UNMAPPABLE. -/
theorem noStepProducesUnmappable : Obligations.NoStepProducesUnmappable := by
  intro s t ht herr
  by_contra hs
  rcases step_effect ht with ⟨-, he⟩ | ⟨-, rfl⟩ | rfl | ⟨a, w, c, -, -, -, he⟩ | ⟨a, r, u, -, -, he, rfl⟩
  · exact he.err_ne_unmappable hs herr
  · cases herr
  · exact hs herr
  · exact he.err_ne_unmappable hs herr
  · obtain ⟨-, -, -, herr', -⟩ := he.frame
    exact hs (herr'.symm.trans herr)

/-- Settles O46: column by column, the effect of the turn that is next. -/
theorem stateFollowsTheTransitionTable : Obligations.StateFollowsTheTransitionTable := by
  intro s t ht
  refine ⟨fun hn => ?_, fun hn hp => (step_engine_effect hn ht).done_or_error hp, fun hn hp => ?_, fun a w ha hw => ?_,
    fun a ha hw => ?_⟩
  · rw [step_reset_effect hn ht]
    rfl
  · rw [(step_engine_effect hn ht).eq_of_not_pending hp]
    rfl
  · have he := step_command_effect ha hw ht
    refine ⟨fun hb => ?_, fun hb => ⟨fun hc => ?_, fun hc => ?_, fun hc => ?_⟩⟩
    · rw [he.eq_of_busy hb]
      exact hb
    · exact (hc ▸ he).state_ack hb
    · exact (hc ▸ he).state_illegal hb
    · rcases hc with hc | hc
      · exact (hc ▸ he).state_start rfl hb
      · exact (hc ▸ he).state_start rfl hb
  · obtain ⟨r, u, he, rfl⟩ := step_port_effect ha hw ht
    obtain ⟨-, -, hstate, -⟩ := he.frame
    exact hstate

/-- Settles O47: each effect's frame, and what the effect that leaves it needs. -/
theorem eachPieceOfStateHasItsOwnWriters : Obligations.EachPieceOfStateHasItsOwnWriters := by
  intro s t ht
  rcases step_effect ht with ⟨hn, he⟩ | ⟨hn, rfl⟩ | rfl | ⟨a, w, c, ha, hw, -, he⟩ | ⟨a, r, u, ha, hw, he, rfl⟩
  · obtain ⟨hparams, hinMem, hinLen, hie⟩ := he.frame
    refine ⟨hparams, fun h => absurd hinMem h, fun h => .inr ⟨hn, he.outMem_ne h⟩, fun h => absurd hinLen h,
      fun h => absurd hie h, fun h => .inr (.inl ⟨hn, fun hp => ?_⟩)⟩
    rw [he.eq_of_not_pending hp] at h
    simp at h
  · exact ⟨rfl, fun _ => .inl hn, fun _ => .inl hn, fun _ => .inl hn, fun _ => .inl hn, fun _ => .inl hn⟩
  · simp
  · obtain ⟨hparams, hinMem, houtMem, hinLen, hie⟩ := he.frame
    refine ⟨hparams, fun h => absurd hinMem h, fun h => absurd houtMem h, fun h => absurd hinLen h,
      fun h => absurd hie h, fun h => .inr (.inr ⟨a, w, ha, hw, fun hb => ?_⟩)⟩
    rw [he.eq_of_busy hb] at h
    simp at h
  · obtain ⟨hparams, houtMem, hstate, herr, herrInfo, houtLen, hpending⟩ := he.frame
    refine ⟨hparams, fun h => .inr ?_, fun h => absurd houtMem h, fun h => .inr ?_, fun h => .inr ?_, fun h => ?_⟩
    · obtain ⟨d, off, rfl, hwin⟩ := he.inMem_ne h
      exact ⟨d, off, ha, hwin⟩
    · obtain ⟨rfl, hb⟩ := he.inLen_ne h
      exact ⟨ha, hb⟩
    · obtain ⟨v, rfl, hie⟩ := he.ie_ne h
      exact ⟨v, ha, hie⟩
    · rcases h with h | h | h | h | h
      · exact absurd hstate h
      · exact absurd herr h
      · exact absurd herrInfo h
      · exact absurd houtLen h
      · exact absurd hpending h

/-! ### The interrupt output -/

theorem State.irq_of_busy {s : State} (h : s.state = .busy) : s.irq = false := by simp [State.irq, h]

@[simp] theorem State.raiseError_irq (e : ErrCode) (w : Word) (s : State) : (State.raiseError e w s).irq = s.ie :=
  State.irq_of_done_or_error (.inr rfl)

@[simp] theorem State.acknowledge_irq (s : State) : (State.acknowledge s).irq = false := State.irq_of_idle rfl

@[simp] theorem State.applyReset_irq (s : State) : (State.applyReset s).irq = false := State.irq_of_idle rfl

@[simp] theorem State.storeIn_irq (i : Nat) (bs : List Byte) (s : State) : (State.storeIn i bs s).irq = s.irq := rfl

@[simp] theorem State.setInLen_irq (w : Word) (s : State) : (State.setInLen w s).irq = s.irq := rfl

/-- How `irq` can fall or rise in a command write: by acknowledging or accepting, or by an error with IE set. -/
theorem CommandEffect.irq_cases {s t : State} {c : Decoded} (he : CommandEffect s c t) :
    t.irq = s.irq ∨
    (t.irq = s.ie ∧ t.state = .error ∧ (t.err = .param ∨ t.err = .illegalCmd)) ∨
    (t.irq = false ∧ ((c = .command .ack ∧ t.state = .idle) ∨
      ((c = .command .encode ∨ c = .command .decode) ∧ t.state = .busy))) := by
  cases he with
  | dropped | ackInIdle => exact .inl rfl
  | illegal => exact .inr (.inl ⟨State.raiseError_irq .., rfl, .inr rfl⟩)
  | paramError => exact .inr (.inl ⟨State.raiseError_irq .., rfl, .inl rfl⟩)
  | accepted hi =>
    refine .inr (.inr ⟨State.accept_irq .., .inr ⟨?_, rfl⟩⟩)
    rcases startMode_eq_some hi with rfl | rfl
    · exact .inl rfl
    · exact .inr rfl
  | acknowledged => exact .inr (.inr ⟨State.acknowledge_irq _, .inl ⟨rfl, rfl⟩⟩)

/-- Only a WRITE of IRQ_EN can move `irq` among the other accesses. -/
theorem PortEffect.irq_cases {s u : State} {a : Access} (he : PortEffect s a u) :
    u.irq = s.irq ∨ ∃ v : Word, a = ⟨.write (.b4 v), 0x14#18⟩ ∧ u = State.setIe (v.getLsbD 0) s := by
  cases he with
  | unchanged | storeIn | setInLen => exact .inl rfl
  | setIe v => exact .inr ⟨v, rfl, rfl⟩

/-- The ways of 60_exceptions.md R231 in which `irq` falls. -/
def IrqFall (s t : State) : Prop :=
  s.resetNext = true ∨ ∃ a : Access, s.nextAccess = some a ∧
    ((commandWord a = some (encode .ack) ∧ t.state = .idle) ∨
      ((commandWord a = some (encode .encode) ∨ commandWord a = some (encode .decode)) ∧ t.state = .busy) ∨
      ∃ v : Word, a = ⟨.write (.b4 v), 0x14#18⟩ ∧ v.getLsbD 0 = false)

/-- The ways of 60_exceptions.md R231 in which `irq` rises. -/
def IrqRise (s t : State) : Prop :=
  (s.engineNext = true ∧ s.pending ≠ none ∧ s.ie = true) ∨
  ∃ a : Access, s.nextAccess = some a ∧
    ((∃ v : Word, a = ⟨.write (.b4 v), 0x14#18⟩ ∧ v.getLsbD 0 = true ∧ (s.state = .done ∨ s.state = .error)) ∨
      (commandWord a ≠ none ∧ s.ie = true ∧ t.state = .error ∧ (t.err = .param ∨ t.err = .illegalCmd)))

theorem irqFall_of_step {s t : State} (ht : step s = .next t) (hs : s.irq = true) (hirq : t.irq = false) : IrqFall s t := by
  obtain ⟨hie, hstate⟩ := s.irq_iff.1 hs
  have hne : t.irq ≠ s.irq := by simp [hs, hirq]
  rcases step_effect ht with ⟨-, he⟩ | ⟨hn, -⟩ | rfl | ⟨a, w, c, ha, hw, hc, he⟩ | ⟨a, r, u, ha, -, he, rfl⟩
  · by_cases hp : s.pending = none
    · rw [he.eq_of_not_pending hp] at hne
      exact absurd rfl hne
    · have hup := he.irq_eq hp
      simp [hirq, hie] at hup
  · exact .inl hn
  · exact absurd rfl hne
  · refine .inr ⟨a, ha, ?_⟩
    rcases he.irq_cases with h | ⟨h, -⟩ | ⟨-, ⟨rfl, hidle⟩ | ⟨hmode, hbusy⟩⟩
    · exact absurd h hne
    · simp [hirq, hie] at h
    · exact .inl ⟨eq_encode_of_decodeCmd hc ▸ hw, hidle⟩
    · refine .inr (.inl ⟨?_, hbusy⟩)
      rcases hmode with rfl | rfl
      · exact .inl (eq_encode_of_decodeCmd hc ▸ hw)
      · exact .inr (eq_encode_of_decodeCmd hc ▸ hw)
  · rcases he.irq_cases with h | ⟨v, rfl, rfl⟩
    · exact absurd h hne
    · refine .inr ⟨_, ha, .inr (.inr ⟨v, rfl, ?_⟩)⟩
      by_contra hv
      have hup := (State.irq_iff (State.setIe (v.getLsbD 0) s.taken)).2 ⟨Bool.eq_true_of_not_eq_false hv, hstate⟩
      exact absurd (hup.symm.trans hirq) (by decide)

theorem irqRise_of_step {s t : State} (ht : step s = .next t) (hs : s.irq = false) (hirq : t.irq = true) : IrqRise s t := by
  have hne : t.irq ≠ s.irq := by simp [hs, hirq]
  rcases step_effect ht with ⟨hn, he⟩ | ⟨-, rfl⟩ | rfl | ⟨a, w, c, ha, hw, -, he⟩ | ⟨a, r, u, ha, -, he, rfl⟩
  · refine .inl ⟨hn, ?_⟩
    by_cases hp : s.pending = none
    · rw [he.eq_of_not_pending hp] at hne
      exact absurd rfl hne
    · exact ⟨hp, (he.irq_eq hp).symm.trans hirq⟩
  · simp at hirq
  · exact absurd rfl hne
  · refine .inr ⟨a, ha, .inr ⟨by simp [hw], ?_⟩⟩
    rcases he.irq_cases with h | ⟨h, herror⟩ | ⟨h, -⟩
    · exact absurd h hne
    · exact ⟨h.symm.trans hirq, herror⟩
    · simp [hirq] at h
  · rcases he.irq_cases with h | ⟨v, rfl, rfl⟩
    · exact absurd h hne
    · exact .inr ⟨_, ha, .inl ⟨v, rfl, (State.irq_iff _).1 hirq⟩⟩

theorem step_writeIrqEn {s : State} {v : Word} (ha : s.nextAccess = some ⟨.write (.b4 v), 0x14#18⟩) :
    step s = .next (State.respond writeDone (State.setIe (v.getLsbD 0) s.taken)) := by
  have hw : commandWord ⟨.write (.b4 v), 0x14#18⟩ = none := rfl
  have hr : route s.taken.params (busWidth (.b4 v)) 0x14#18 = some (.reg .irqEn) := route_regOffset _ .irqEn
  rw [step_of_nextAccess ha, hostStep_port hw]
  exact portAccess_write hr

/-- Settles O45: every effect moves `irq` in one of the listed ways, and the listed turns have those effects. -/
theorem interruptFallsAndRisesOnlyAsListed : Obligations.InterruptFallsAndRisesOnlyAsListed := by
  intro s t ht
  refine ⟨irqFall_of_step ht, irqRise_of_step ht, fun hn => ?_, fun hn hp => (step_engine_effect hn ht).irq_eq hp,
    fun v ha => ?_, fun a w ha hw hb => ?_⟩
  · rw [step_reset_effect hn ht]
    exact State.applyReset_irq _
  · rw [step_writeIrqEn ha] at ht
    obtain rfl := Host.Outcome.next.inj ht
    exact State.irq_iff _
  · have he := step_command_effect ha hw ht
    obtain ⟨-, -, -, -, (hie : t.ie = s.ie)⟩ := he.frame
    refine ⟨?_, fun hstart => ?_, fun hc => ?_⟩
    · rintro rfl
      rw [decodeCmd_encode] at he
      exact State.irq_of_idle (he.state_ack hb)
    · have hstate : t.state = if s.inLen.toNat ≤ s.params.inCap then .busy else .error := by
        rcases hstart with rfl | rfl <;> rw [decodeCmd_encode] at he
        · exact he.state_start rfl hb
        · exact he.state_start rfl hb
      by_cases hl : s.inLen.toNat ≤ s.params.inCap
      · rw [if_pos hl] at hstate
        rw [State.irq_of_busy hstate, decide_eq_false (Nat.not_lt.2 hl), Bool.false_and]
      · rw [if_neg hl] at hstate
        rw [State.irq_of_done_or_error (.inr hstate), hie, decide_eq_true (Nat.lt_of_not_le hl), Bool.true_and]
    · exact (State.irq_of_done_or_error (.inr ((hc ▸ he).state_illegal hb))).trans hie

end Sys2Proof.Machine
end

section
/-! PROOFS. BUSY (70_reset_and_hazards.md R256), what stops the machine (93_implementation_defined.md), and the end of a pending
operation (R263), and the obligations on them. -/

namespace Sys2Proof.Machine

/-! ### The lock of BUSY -/

theorem PortEffect.eq_of_busy {s u : State} {a : Access} (he : PortEffect s a u) (hb : s.state = .busy) :
    u = s ∨ ∃ v : Word, a = ⟨.write (.b4 v), 0x14#18⟩ ∧ u = State.setIe (v.getLsbD 0) s := by
  cases he with
  | unchanged => exact .inl rfl
  | storeIn _ _ hb' | setInLen _ hb' => exact absurd hb hb'
  | setIe v => exact .inr ⟨v, rfl, rfl⟩

/-- In BUSY only unwritten bytes of the IN window have no value to READ (20_memory.md R69, R71). -/
theorem readTarget_eq_none_of_busy {w : Width} {s : State} {tg : Target} (hb : s.state = .busy)
    (hd : readTarget w s tg = none) : ∃ i, tg = .inWindow i := by
  cases tg with
  | reg r => cases hd
  | inWindow i => exact ⟨i, rfl⟩
  | outWindow j =>
    rw [readTarget_outWindow_busy hb] at hd
    cases hd

/-- What an access other than a command write does in BUSY. -/
theorem portAccess_of_busy {a : Access} {s : State} (hb : s.state = .busy) :
    (∃ r u, PortEffect s a u ∧ portAccess a s = .next (State.respond r u)) ∨
    (portAccess a s = .fault .unwrittenRead ∧ ∃ (w : Width) (i : Nat), a.op = .read w ∧
      route s.params w a.off = some (.inWindow i)) := by
  obtain ⟨op, off⟩ := a
  cases hr : route s.params (accessWidth op) off with
  | none => exact .inl ⟨_, s, .unchanged _, portAccess_busError hr⟩
  | some tg =>
    cases op with
    | write d => exact .inl ⟨_, _, writeTarget_effect hr, portAccess_write hr⟩
    | read w =>
      cases hd : readTarget w s tg with
      | some d => exact .inl ⟨_, s, .unchanged _, portAccess_read hr hd⟩
      | none =>
        obtain ⟨i, rfl⟩ := readTarget_eq_none_of_busy hb hd
        exact .inr ⟨portAccess_read_unwritten hr hd, w, i, rfl, hr⟩

/-- Settles O40: a command write is dropped, and of the other effects only a WRITE of IRQ_EN is left in BUSY. -/
theorem busyLocksTheOperation : Obligations.BusyLocksTheOperation := by
  intro s a es hev hb _
  cases hw : commandWord a with
  | some w =>
    have hstep : step s = .next (State.respond writeDone (State.withEvents es s)) := by
      rw [step_host hev, hostStep_command hw]
      exact cmdWrite_busy w hb
    exact .inl ⟨_, s.ie, hstep, fun h => absurd rfl h⟩
  | none =>
    rw [step_port hev hw]
    rcases portAccess_of_busy (a := a) (s := State.withEvents es s) hb with ⟨r, u, he, hport⟩ | ⟨hport, w, i, hop, hr⟩
    · rcases he.eq_of_busy hb with rfl | ⟨v, rfl, rfl⟩
      · exact .inl ⟨r, s.ie, hport, fun h => absurd rfl h⟩
      · exact .inl ⟨r, v.getLsbD 0, hport, fun _ => ⟨v, rfl, rfl⟩⟩
    · obtain ⟨hoff, (hi : i + widthBytes w ≤ s.params.inCap), -⟩ := route_inWindow hr
      exact .inr ⟨hport, w, hop, by omega, by omega⟩

/-! ### What stops the machine -/

/-- Both operations stop on the same unwritten input (70_reset_and_hazards.md R257). -/
theorem startOp_outcome (m : Mode) {s : State} (hb : s.state ≠ .busy) :
    (startsUnwritten .encode s = false ∧ ∃ t, startOp m s = .next t) ∨
    (startsUnwritten .encode s = true ∧ startOp m s = .fault .unwrittenInput) := by
  by_cases hl : s.inLen.toNat ≤ s.params.inCap
  · cases hw : Memory.written s.inMem s.inLen.toNat with
    | true => exact .inl ⟨by simp [startsUnwritten, hw], _, startOp_accept hl hw⟩
    | false => exact .inr ⟨by simp [startsUnwritten, hb, hl, hw], startOp_fault hl hw⟩
  · exact .inl ⟨by simp [startsUnwritten, hl], _, startOp_paramError (Nat.lt_of_not_le hl)⟩

theorem exec_outcome (i : Instr) (s : State) :
    (startsUnwritten i s = false ∧ ∃ t, exec i s = .next t) ∨
    (startsUnwritten i s = true ∧ exec i s = .fault .unwrittenInput) := by
  by_cases hb : s.state = .busy
  · refine .inl ⟨?_, s, exec_busy i hb⟩
    cases i <;> simp [startsUnwritten, hb]
  · cases i with
    | encode =>
      rw [exec_encode hb]
      exact startOp_outcome .encode hb
    | decode =>
      rw [exec_decode hb]
      exact startOp_outcome .decode hb
    | ack =>
      obtain ⟨t, ht, -⟩ := exists_exec_ack_idle hb
      exact .inl ⟨rfl, t, ht⟩

theorem cmdWrite_outcome {a : Access} {w : Word} (s : State) (hw : commandWord a = some w) :
    (accessStops a s = false ∧ ∃ t, cmdWrite w (State.respond writeDone s) = .next t) ∨
    (accessStops a s = true ∧ cmdWrite w (State.respond writeDone s) = .fault .unwrittenInput) := by
  cases hc : decodeCmd w with
  | illegal => exact .inl ⟨by simp only [accessStops, hw, hc], _, cmdWrite_of_illegal _ hc⟩
  | command i =>
    have hstops : accessStops a s = startsUnwritten i (State.respond writeDone s) := by
      simp only [accessStops, hw, hc]
      rfl
    rw [hstops, cmdWrite_of_command _ hc]
    exact exec_outcome i _

theorem portAccess_outcome {a : Access} (s : State) (hw : commandWord a = none) :
    (accessStops a s = false ∧ ∃ t, portAccess a s = .next t) ∨
    (accessStops a s = true ∧ portAccess a s = .fault .unwrittenRead) := by
  obtain ⟨op, off⟩ := a
  cases op with
  | write d =>
    refine .inl ⟨by simp [accessStops, hw], ?_⟩
    cases hr : route s.params (busWidth d) off with
    | none => exact ⟨_, portAccess_busError hr⟩
    | some tg => exact ⟨_, portAccess_write hr⟩
  | read w =>
    cases hr : route s.params w off with
    | none => exact .inl ⟨by simp [accessStops, accessWidth, hr], _, portAccess_busError hr⟩
    | some tg =>
      have hstops : accessStops ⟨.read w, off⟩ s = (readTarget w s tg).isNone := by
        simp only [accessStops, commandWord_read, accessWidth, hr]
      rw [hstops]
      cases hd : readTarget w s tg with
      | some d => exact .inl ⟨rfl, _, portAccess_read hr hd⟩
      | none => exact .inr ⟨rfl, portAccess_read_unwritten hr hd⟩

/-- `accessStops` says exactly on which accesses the step is a fault, and its kind says which. -/
theorem hostStep_outcome (a : Access) (s : State) :
    (accessStops a s = false ∧ ∃ t, hostStep a s = .next t) ∨
    (accessStops a s = true ∧ ((commandWord a ≠ none ∧ hostStep a s = .fault .unwrittenInput) ∨
      (commandWord a = none ∧ hostStep a s = .fault .unwrittenRead))) := by
  cases hw : commandWord a with
  | some w =>
    rw [hostStep_command hw]
    exact (cmdWrite_outcome s hw).imp id (And.imp id fun h => .inl ⟨by simp, h⟩)
  | none =>
    rw [hostStep_port hw]
    exact (portAccess_outcome s hw).imp id (And.imp id fun h => .inr ⟨rfl, h⟩)

theorem safe_of_nextAccess {s : State} {a : Access} (ha : s.nextAccess = some a) : s.safe = !accessStops a s.taken := by
  simp only [State.safe, ha]
  rfl

/-- A turn that is no access at the port always answers a next state. -/
theorem step_of_nextAccess_eq_none {s : State} (h : s.inv = true) (ha : s.nextAccess = none) : ∃ t, step s = .next t := by
  rcases step_eq s with ⟨-, -, he⟩ | ⟨-, -, he⟩ | ⟨-, -, -, he⟩ | ⟨a, -, -, ha', -⟩
  · obtain ⟨t, ht, -⟩ := engineStep_of_inv (inv_withEvents s.events.tail h)
    exact ⟨t, he.trans ht⟩
  · exact ⟨_, he⟩
  · exact ⟨_, he⟩
  · cases ha.symm.trans ha'

/-- Settles O50: the invariant carries the engine's turn, and an access stops only as `accessStops` says. -/
theorem onlyUnwrittenBytesStopTheMachine : Obligations.OnlyUnwrittenBytesStopTheMachine := by
  intro s h
  cases ha : s.nextAccess with
  | none => exact ⟨fun _ => step_of_nextAccess_eq_none h ha, fun hsafe => by simp [State.safe, ha] at hsafe⟩
  | some a =>
    rw [safe_of_nextAccess ha, step_of_nextAccess ha]
    rcases hostStep_outcome a s.taken with ⟨hstops, hnext⟩ | ⟨hstops, hfault⟩ <;> rw [hstops]
    · exact ⟨fun _ => hnext, by simp⟩
    · exact ⟨(by simp), fun _ => ⟨a, rfl, hfault⟩⟩

/-! ### A pending operation completes -/

theorem State.pending_ne_none_iff {s : State} (h : s.inv = true) : s.pending ≠ none ↔ s.state = .busy := by
  obtain ⟨-, -, -, hlatch, -⟩ := (State.inv_iff s).1 h
  exact ((State.latchOk_iff s).1 hlatch).symm

theorem engineStep_not_busy {s t : State} (h : s.inv = true) (ht : engineStep s = .next t) : t.state ≠ .busy := by
  have he := engineStep_effect ht
  by_cases hp : s.pending = none
  · rw [he.eq_of_not_pending hp]
    exact fun hb => (State.pending_ne_none_iff h).2 hb hp
  · rcases he.done_or_error hp with hs | hs <;> simp [hs]

/-- Once the listed turns are taken, the engine's own turn ends whatever is pending (70_reset_and_hazards.md R263). -/
theorem run_not_busy {es : List Event} {s t : State} (hev : s.events = es) (h : s.inv = true)
    (ht : Host.Core.run Sys2Proof.core (es.length + 1) s = .next t) : t.state ≠ .busy := by
  induction es generalizing s with
  | nil =>
    cases hs : step s with
    | next u =>
      rw [List.length_nil, core_run_next hs, core_run_zero] at ht
      obtain rfl := Host.Outcome.next.inj ht
      exact engineStep_not_busy h (step_of_events_nil hev ▸ hs)
    | fault r => cases (core_run_fault hs).symm.trans ht
    | refused r => cases (core_run_refused hs).symm.trans ht
  | cons e es ih =>
    cases hs : step s with
    | next u =>
      rw [List.length_cons, core_run_next hs] at ht
      exact ih (by rw [step_events hs, hev, List.tail_cons]) (everyStepKeepsTheInvariant s u h hs) ht
    | fault r => cases (core_run_fault hs).symm.trans ht
    | refused r => cases (core_run_refused hs).symm.trans ht

/-- Settles O51: the invariant says that BUSY is a pending operation over written input, which the engine's turn completes. -/
theorem pendingOperationsComplete : Obligations.PendingOperationsComplete := by
  refine ⟨fun s h hb => ?_, fun s t h ht => run_not_busy rfl h ht⟩
  obtain ⟨t, ht, hend⟩ := engineStep_of_inv h
  exact ⟨t, ht, hend ((State.pending_ne_none_iff h).2 hb)⟩

end Sys2Proof.Machine
end
